-- ==== Sys2Proof/Word.lean ====
section
/-! DEFINITION. The plain types of the spec's "Types" block (spec/00_scope.md): bytes, codes, 16-bit
patterns, and the small closed sets of names an instruction or a record is made of. -/

namespace Sys2Proof

/-- A byte is 8 bits (R7); bit 7 is the most significant (R8). -/
abbrev Byte := BitVec 8

/-- A register code or `RM` code is 3 bits (R7). -/
abbrev Code3 := BitVec 3

/-- A 16-bit pattern: a `u16` when read by `toNat`, an `i16` when read as signed (R7, R9). -/
abbrev Word16 := BitVec 16

/-- The width flag `W`: 0 is byte, 1 is word (R56). -/
inductive Width where
  /-- `W == 0`. -/
  | byte
  /-- `W == 1`. -/
  | word
deriving DecidableEq, Repr

/-- The direction bit `D` of `RegMemToFromReg` (R110). -/
inductive Direction where
  /-- `D == 0`: `REG` names the source. -/
  | regIsSource
  /-- `D == 1`: `REG` names the destination. -/
  | regIsDest
deriving DecidableEq, Repr

/-- The size hint of an immediate (R106). -/
inductive SizeHint where
  | byte
  | word
deriving DecidableEq, Repr

/-- The five `MOV` encoding forms (R51 to R54). -/
inductive Variant where
  | regMemToFromReg
  | immediateToReg
  | immediateToRegMem
  | memToAcc
  | accToMem
deriving DecidableEq, Repr

/-- The block's only exceptions (R170, R171, R172). -/
inductive Failure where
  /-- The first byte matches none of the five patterns (R170). -/
  | unknownOpcode
  /-- A needed byte lies at an offset `≥ LEN` (R171). -/
  | truncatedInstruction
deriving DecidableEq, Repr

end Sys2Proof
end

