-- ==== Sys2Proof/Syntax.lean ====
section
/-! DEFINITION. The decoded instructions as syntax: one constructor per row of spec/opcode_table.json
(21 rows, all of mnemonic `mov`). A constructor carries every bit its encoding leaves free, as raw
fields; what the fields mean is in Machine/Operands.lean. `x` is the `REG` field of `ImmediateToRegMem`,
which is not examined (R65): it is kept so that no bit of an encoding is dropped. -/

namespace Sys2Proof

inductive Instr where
  -- RegMemToFromReg (R51, R110)
  /-- `100010dw 11rrrmmm`: register and register. -/
  | rmReg (d : Direction) (w : Width) (reg rm : Code3)
  /-- `100010dw 00rrr110 addr_lo addr_hi`: register and direct address. -/
  | rmDirect (d : Direction) (w : Width) (reg : Code3) (addr : Word16)
  /-- `100010dw 00rrrmmm`, `mmm` not `110`: register and base expression. -/
  | rmMem (d : Direction) (w : Width) (reg rm : Code3)
  /-- `100010dw 01rrrmmm disp8`. -/
  | rmDisp8 (d : Direction) (w : Width) (reg rm : Code3) (disp : Byte)
  /-- `100010dw 10rrrmmm disp_lo disp_hi`. -/
  | rmDisp16 (d : Direction) (w : Width) (reg rm : Code3) (disp : Word16)
  -- ImmediateToReg (R52, R111)
  /-- `10110rrr data8`. -/
  | immRegByte (reg : Code3) (imm : Byte)
  /-- `10111rrr data_lo data_hi`. -/
  | immRegWord (reg : Code3) (imm : Word16)
  -- ImmediateToRegMem, W = 0 (R53, R112)
  /-- `11000110 11xxxmmm data8`. -/
  | immRmRegByte (x rm : Code3) (imm : Byte)
  /-- `11000110 00xxx110 addr_lo addr_hi data8`. -/
  | immRmDirectByte (x : Code3) (addr : Word16) (imm : Byte)
  /-- `11000110 00xxxmmm data8`, `mmm` not `110`. -/
  | immRmMemByte (x rm : Code3) (imm : Byte)
  /-- `11000110 01xxxmmm disp8 data8`. -/
  | immRmDisp8Byte (x rm : Code3) (disp : Byte) (imm : Byte)
  /-- `11000110 10xxxmmm disp_lo disp_hi data8`. -/
  | immRmDisp16Byte (x rm : Code3) (disp : Word16) (imm : Byte)
  -- ImmediateToRegMem, W = 1 (R53, R112)
  /-- `11000111 11xxxmmm data_lo data_hi`. -/
  | immRmRegWord (x rm : Code3) (imm : Word16)
  /-- `11000111 00xxx110 addr_lo addr_hi data_lo data_hi`. -/
  | immRmDirectWord (x : Code3) (addr : Word16) (imm : Word16)
  /-- `11000111 00xxxmmm data_lo data_hi`, `mmm` not `110`. -/
  | immRmMemWord (x rm : Code3) (imm : Word16)
  /-- `11000111 01xxxmmm disp8 data_lo data_hi`. -/
  | immRmDisp8Word (x rm : Code3) (disp : Byte) (imm : Word16)
  /-- `11000111 10xxxmmm disp_lo disp_hi data_lo data_hi`. -/
  | immRmDisp16Word (x rm : Code3) (disp : Word16) (imm : Word16)
  -- MemToAcc (R54, R113)
  /-- `10100000 addr8`. -/
  | memToAccByte (addr : Byte)
  /-- `10100001 addr_lo addr_hi`. -/
  | memToAccWord (addr : Word16)
  -- AccToMem (R54, R114)
  /-- `10100010 addr8`. -/
  | accToMemByte (addr : Byte)
  /-- `10100011 addr_lo addr_hi`. -/
  | accToMemWord (addr : Word16)
deriving DecidableEq, Repr

end Sys2Proof
end

