-- ==== Sys2Proof/WellFormed.lean ====
section
/-! DEFINITION. Which instructions have an encoding. The only restriction of the opcode table is the
`not` entry of the three rows with `MOD == 00`: there `RM == 110` is the direct-address row (R57, R67). -/

namespace Sys2Proof

/-- `RM == 110` under `MOD == 00` is a direct address, never a base expression (R103). -/
def rmIsBase (rm : Code3) : Bool := rm != 6#3

/-- The instruction is a row of the opcode table with its `not` entry respected. -/
def Instr.wf : Instr → Bool
  | .rmReg _ _ _ _ => true
  | .rmDirect _ _ _ _ => true
  | .rmMem _ _ _ rm => rmIsBase rm
  | .rmDisp8 _ _ _ _ _ => true
  | .rmDisp16 _ _ _ _ _ => true
  | .immRegByte _ _ => true
  | .immRegWord _ _ => true
  | .immRmRegByte _ _ _ => true
  | .immRmDirectByte _ _ _ => true
  | .immRmMemByte _ rm _ => rmIsBase rm
  | .immRmDisp8Byte _ _ _ _ => true
  | .immRmDisp16Byte _ _ _ _ => true
  | .immRmRegWord _ _ _ => true
  | .immRmDirectWord _ _ _ => true
  | .immRmMemWord _ rm _ => rmIsBase rm
  | .immRmDisp8Word _ _ _ _ => true
  | .immRmDisp16Word _ _ _ _ => true
  | .memToAccByte _ => true
  | .memToAccWord _ => true
  | .accToMemByte _ => true
  | .accToMemWord _ => true

end Sys2Proof
end

