-- ==== Sys2Proof/Decode.lean ====
section
/-! DEFINITION. From bytes to an instruction, total, rejecting by the spec's two failure names
(spec/30_encoding.md, 40_classifier.md, 42_operand_resolver.md); after it the encoder, written from the same
format tables R51 to R54. -/

namespace Sys2Proof

/-! ### Bit fields and byte order -/

/-- `b[i]` as a one-bit field (R8). -/
def bitField (b : Byte) (i : Nat) : BitVec 1 := b.extractLsb' i 1

/-- `MOD = m[7:6]` (R55). -/
def modField (m : Byte) : BitVec 2 := m.extractLsb' 6 2

/-- `REG = m[5:3]` (R55). -/
def regField (m : Byte) : Code3 := m.extractLsb' 3 3

/-- `RM = m[2:0]` (R55). -/
def rmField (m : Byte) : Code3 := m.extractLsb' 0 3

/-- Little-endian: the byte at the lower offset is the low byte (R34). -/
def word16 (lo hi : Byte) : Word16 := hi ++ lo

/-- The byte at the lower offset (R34). -/
def loByte (v : Word16) : Byte := v.extractLsb' 0 8

/-- The byte at the higher offset (R34). -/
def hiByte (v : Word16) : Byte := v.extractLsb' 8 8

/-- `W == 0` means byte, `W == 1` means word (R56). -/
def Width.ofBit (b : BitVec 1) : Width := if b = 0#1 then .byte else .word

/-- The width as its encoding bit (R56). -/
def Width.bit : Width → BitVec 1
  | .byte => 0#1
  | .word => 1#1

/-- `D == 0`: `REG` is the source; `D == 1`: `REG` is the destination (R110). -/
def Direction.ofBit (b : BitVec 1) : Direction := if b = 0#1 then .regIsSource else .regIsDest

/-- The direction as its encoding bit (R51). -/
def Direction.bit : Direction → BitVec 1
  | .regIsSource => 0#1
  | .regIsDest => 1#1

/-! ### The classifier -/

/-- `Classify(b)`, the tests in the document's order (R80 to R86). -/
def classify (b : Byte) : Except Failure Variant :=
  if b &&& 0xFE#8 = 0xC6#8 then .ok .immediateToRegMem
  else if b &&& 0xFE#8 = 0xA0#8 then .ok .memToAcc
  else if b &&& 0xFE#8 = 0xA2#8 then .ok .accToMem
  else if b &&& 0xFC#8 = 0x88#8 then .ok .regMemToFromReg
  else if b &&& 0xF0#8 = 0xB0#8 then .ok .immediateToReg
  else .error .unknownOpcode

/-! ### Bounds-checked consumption of the instruction bytes -/

/-- The next byte, or `TruncatedInstruction` where there is none (R37, R115). -/
def takeByte : List Byte → Except Failure (Byte × List Byte)
  | b :: bs => .ok (b, bs)
  | [] => .error .truncatedInstruction

/-- The next two bytes as one little-endian value; with one byte left it fails as a whole (R34, R37). -/
def takeWord : List Byte → Except Failure (Word16 × List Byte)
  | lo :: hi :: bs => .ok (word16 lo hi, bs)
  | _ => .error .truncatedInstruction

/-! ### The register-or-memory forms of the ModR/M byte -/

/-- The five rows of the displacement table R57, with the bytes they carry. -/
inductive RmForm where
  | reg (rm : Code3)
  | direct (addr : Word16)
  | mem (rm : Code3)
  | disp8 (rm : Code3) (disp : Byte)
  | disp16 (rm : Code3) (disp : Word16)
deriving DecidableEq, Repr

/-- The bytes after the ModR/M byte `m`, by `MOD` and `RM` (R57, R102 to R105). -/
def decodeRm (m : Byte) (bs : List Byte) : Except Failure (RmForm × List Byte) :=
  if modField m = 3#2 then .ok (.reg (rmField m), bs)
  else if modField m = 0#2 then
    if rmField m = 6#3 then (takeWord bs).map fun p => (.direct p.1, p.2)
    else .ok (.mem (rmField m), bs)
  else if modField m = 1#2 then (takeByte bs).map fun p => (.disp8 (rmField m) p.1, p.2)
  else (takeWord bs).map fun p => (.disp16 (rmField m) p.1, p.2)

/-- The `RegMemToFromReg` row of a ModR/M form (R51). -/
def regMemInstr (d : Direction) (w : Width) (reg : Code3) : RmForm → Instr
  | .reg rm => .rmReg d w reg rm
  | .direct addr => .rmDirect d w reg addr
  | .mem rm => .rmMem d w reg rm
  | .disp8 rm disp => .rmDisp8 d w reg rm disp
  | .disp16 rm disp => .rmDisp16 d w reg rm disp

/-- The `ImmediateToRegMem` row of a ModR/M form with a byte immediate (R53). -/
def immRmByteInstr (x : Code3) (imm : Byte) : RmForm → Instr
  | .reg rm => .immRmRegByte x rm imm
  | .direct addr => .immRmDirectByte x addr imm
  | .mem rm => .immRmMemByte x rm imm
  | .disp8 rm disp => .immRmDisp8Byte x rm disp imm
  | .disp16 rm disp => .immRmDisp16Byte x rm disp imm

/-- The `ImmediateToRegMem` row of a ModR/M form with a word immediate (R53). -/
def immRmWordInstr (x : Code3) (imm : Word16) : RmForm → Instr
  | .reg rm => .immRmRegWord x rm imm
  | .direct addr => .immRmDirectWord x addr imm
  | .mem rm => .immRmMemWord x rm imm
  | .disp8 rm disp => .immRmDisp8Word x rm disp imm
  | .disp16 rm disp => .immRmDisp16Word x rm disp imm

/-! ### The decoder, one part per variant -/

/-- `RegMemToFromReg`: `D` is bit 1, `W` is bit 0 of the first byte (R51). -/
def decodeRegMem (b0 : Byte) (bs : List Byte) : Except Failure (Instr × List Byte) :=
  match takeByte bs with
  | .error e => .error e
  | .ok (m, bs) =>
    (decodeRm m bs).map fun p =>
      (regMemInstr (.ofBit (bitField b0 1)) (.ofBit (bitField b0 0)) (regField m) p.1, p.2)

/-- `ImmediateToReg`: `W` is bit 3, `REG` the low 3 bits of the first byte (R52). -/
def decodeImmReg (b0 : Byte) (bs : List Byte) : Except Failure (Instr × List Byte) :=
  match Width.ofBit (bitField b0 3) with
  | .byte => (takeByte bs).map fun p => (.immRegByte (rmField b0) p.1, p.2)
  | .word => (takeWord bs).map fun p => (.immRegWord (rmField b0) p.1, p.2)

/-- `ImmediateToRegMem`: displacement bytes first, then the immediate of width `W` (R53). -/
def decodeImmRm (b0 : Byte) (bs : List Byte) : Except Failure (Instr × List Byte) :=
  match takeByte bs with
  | .error e => .error e
  | .ok (m, bs) =>
    match decodeRm m bs with
    | .error e => .error e
    | .ok (f, bs) =>
      match Width.ofBit (bitField b0 0) with
      | .byte => (takeByte bs).map fun p => (immRmByteInstr (regField m) p.1 f, p.2)
      | .word => (takeWord bs).map fun p => (immRmWordInstr (regField m) p.1 f, p.2)

/-- `MemToAcc`: a 16-bit address when `W == 1`, an 8-bit address when `W == 0` (R54). -/
def decodeMemToAcc (b0 : Byte) (bs : List Byte) : Except Failure (Instr × List Byte) :=
  match Width.ofBit (bitField b0 0) with
  | .byte => (takeByte bs).map fun p => (.memToAccByte p.1, p.2)
  | .word => (takeWord bs).map fun p => (.memToAccWord p.1, p.2)

/-- `AccToMem`: as `MemToAcc` (R54). -/
def decodeAccToMem (b0 : Byte) (bs : List Byte) : Except Failure (Instr × List Byte) :=
  match Width.ofBit (bitField b0 0) with
  | .byte => (takeByte bs).map fun p => (.accToMemByte p.1, p.2)
  | .word => (takeWord bs).map fun p => (.accToMemWord p.1, p.2)

/-- The instruction at the front of a byte sequence and the bytes after it. Classification comes first and needs
only the first byte (R109, R174); with no byte at all the failure is `TruncatedInstruction` (R184). -/
def decode : List Byte → Except Failure (Instr × List Byte)
  | [] => .error .truncatedInstruction
  | b0 :: bs =>
    match classify b0 with
    | .error e => .error e
    | .ok .regMemToFromReg => decodeRegMem b0 bs
    | .ok .immediateToReg => decodeImmReg b0 bs
    | .ok .immediateToRegMem => decodeImmRm b0 bs
    | .ok .memToAcc => decodeMemToAcc b0 bs
    | .ok .accToMem => decodeAccToMem b0 bs

/-! ### The encoder -/

/-- The ModR/M byte, most significant field first (R55). -/
def modrm (mod : BitVec 2) (reg rm : Code3) : Byte := mod ++ reg ++ rm

/-- The first byte of `RegMemToFromReg`: `100010dw` (R51). -/
def opRegMem (d : Direction) (w : Width) : Byte := 0b100010#6 ++ d.bit ++ w.bit

/-- The first byte of `ImmediateToReg`: `1011wrrr` (R52). -/
def opImmReg (w : Width) (reg : Code3) : Byte := 0b1011#4 ++ w.bit ++ reg

/-- The first byte of `ImmediateToRegMem`: `1100011w` (R53). -/
def opImmRm (w : Width) : Byte := 0b1100011#7 ++ w.bit

/-- The first byte of `MemToAcc`: `1010000w` (R54). -/
def opMemToAcc (w : Width) : Byte := 0b1010000#7 ++ w.bit

/-- The first byte of `AccToMem`: `1010001w` (R54). -/
def opAccToMem (w : Width) : Byte := 0b1010001#7 ++ w.bit

/-- The bytes of a 16-bit field, low byte first (R34). -/
def wordBytes (v : Word16) : List Byte := [loByte v, hiByte v]

/-- The bytes of an instruction, in increasing offset (R35; formats R51 to R54). -/
def encode : Instr → List Byte
  | .rmReg d w reg rm => [opRegMem d w, modrm 3#2 reg rm]
  | .rmDirect d w reg addr => [opRegMem d w, modrm 0#2 reg 6#3] ++ wordBytes addr
  | .rmMem d w reg rm => [opRegMem d w, modrm 0#2 reg rm]
  | .rmDisp8 d w reg rm disp => [opRegMem d w, modrm 1#2 reg rm, disp]
  | .rmDisp16 d w reg rm disp => [opRegMem d w, modrm 2#2 reg rm] ++ wordBytes disp
  | .immRegByte reg imm => [opImmReg .byte reg, imm]
  | .immRegWord reg imm => [opImmReg .word reg] ++ wordBytes imm
  | .immRmRegByte x rm imm => [opImmRm .byte, modrm 3#2 x rm, imm]
  | .immRmDirectByte x addr imm => [opImmRm .byte, modrm 0#2 x 6#3] ++ wordBytes addr ++ [imm]
  | .immRmMemByte x rm imm => [opImmRm .byte, modrm 0#2 x rm, imm]
  | .immRmDisp8Byte x rm disp imm => [opImmRm .byte, modrm 1#2 x rm, disp, imm]
  | .immRmDisp16Byte x rm disp imm => [opImmRm .byte, modrm 2#2 x rm] ++ wordBytes disp ++ [imm]
  | .immRmRegWord x rm imm => [opImmRm .word, modrm 3#2 x rm] ++ wordBytes imm
  | .immRmDirectWord x addr imm => [opImmRm .word, modrm 0#2 x 6#3] ++ wordBytes addr ++ wordBytes imm
  | .immRmMemWord x rm imm => [opImmRm .word, modrm 0#2 x rm] ++ wordBytes imm
  | .immRmDisp8Word x rm disp imm => [opImmRm .word, modrm 1#2 x rm, disp] ++ wordBytes imm
  | .immRmDisp16Word x rm disp imm => [opImmRm .word, modrm 2#2 x rm] ++ wordBytes disp ++ wordBytes imm
  | .memToAccByte addr => [opMemToAcc .byte, addr]
  | .memToAccWord addr => [opMemToAcc .word] ++ wordBytes addr
  | .accToMemByte addr => [opAccToMem .byte, addr]
  | .accToMemWord addr => [opAccToMem .word] ++ wordBytes addr

/-- The `length` column of spec/opcode_table.json (R64). -/
def Instr.length : Instr → Nat
  | .rmReg _ _ _ _ => 2
  | .rmDirect _ _ _ _ => 4
  | .rmMem _ _ _ _ => 2
  | .rmDisp8 _ _ _ _ _ => 3
  | .rmDisp16 _ _ _ _ _ => 4
  | .immRegByte _ _ => 2
  | .immRegWord _ _ => 3
  | .immRmRegByte _ _ _ => 3
  | .immRmDirectByte _ _ _ => 5
  | .immRmMemByte _ _ _ => 3
  | .immRmDisp8Byte _ _ _ _ => 4
  | .immRmDisp16Byte _ _ _ _ => 5
  | .immRmRegWord _ _ _ => 4
  | .immRmDirectWord _ _ _ => 6
  | .immRmMemWord _ _ _ => 4
  | .immRmDisp8Word _ _ _ _ => 5
  | .immRmDisp16Word _ _ _ _ => 6
  | .memToAccByte _ => 2
  | .memToAccWord _ => 3
  | .accToMemByte _ => 2
  | .accToMemWord _ => 3

/-- The `format` column of spec/opcode_table.json. -/
def Instr.variant : Instr → Variant
  | .rmReg _ _ _ _ => .regMemToFromReg
  | .rmDirect _ _ _ _ => .regMemToFromReg
  | .rmMem _ _ _ _ => .regMemToFromReg
  | .rmDisp8 _ _ _ _ _ => .regMemToFromReg
  | .rmDisp16 _ _ _ _ _ => .regMemToFromReg
  | .immRegByte _ _ => .immediateToReg
  | .immRegWord _ _ => .immediateToReg
  | .immRmRegByte _ _ _ => .immediateToRegMem
  | .immRmDirectByte _ _ _ => .immediateToRegMem
  | .immRmMemByte _ _ _ => .immediateToRegMem
  | .immRmDisp8Byte _ _ _ _ => .immediateToRegMem
  | .immRmDisp16Byte _ _ _ _ => .immediateToRegMem
  | .immRmRegWord _ _ _ => .immediateToRegMem
  | .immRmDirectWord _ _ _ => .immediateToRegMem
  | .immRmMemWord _ _ _ => .immediateToRegMem
  | .immRmDisp8Word _ _ _ _ => .immediateToRegMem
  | .immRmDisp16Word _ _ _ _ => .immediateToRegMem
  | .memToAccByte _ => .memToAcc
  | .memToAccWord _ => .memToAcc
  | .accToMemByte _ => .accToMem
  | .accToMemWord _ => .accToMem

/-! ### Words numbered as spec/opcode_table.json numbers them -/

/-- The bytes of a table word. The table's key is `(byte0 << 8) | byte1`: bits 15:8 are the first byte and bits 7:0 the
second; the bytes after the key count on from bit 16 (DESIGN CHOICE, log 8: the table gives them no bits). Bits above
`nbits` are 0, up to the longest instruction, 6 bytes. -/
def tableBytes (nbits w : Nat) : List Byte :=
  let v := w % 2 ^ nbits
  let byteAt (lsb : Nat) : Byte := BitVec.ofNat 8 (v / 2 ^ lsb)
  [byteAt 8, byteAt 0, byteAt 16, byteAt 24, byteAt 32, byteAt 40]

/-- The instruction the decoder reads from a table word. -/
def decodeTableWord (nbits w : Nat) : Option Instr :=
  match decode (tableBytes nbits w) with
  | .ok (i, _) => some i
  | .error _ => none

end Sys2Proof
end

