-- ==== Sys2Proof/Config.lean ====
section
/-! DEFINITION. What is fixed for the machine. The spec leaves no value of the block free
(spec/93_implementation_defined.md: every input has a run), so there is no opaque constant here. -/

namespace Sys2Proof.Config

/-- `MIN_INSTR_LEN` (R6). -/
abbrev minInstrLen : Nat := 2

/-- `MAX_INSTR_LEN` (R6); also the size of the fetch window (R21, D2). -/
abbrev maxInstrLen : Nat := 6

end Sys2Proof.Config
end

