-- ==== Sys2Proof/Machine/State.lean ====
section
/-! DEFINITION. The state of the block as plain data: `pos`, `status`, `out` (spec/10_state.md section 2) and the input
buffer, which the spec makes a parameter of the run (R4, R17) and which stands here because a step is a function of the
state alone (log 1). -/

namespace Sys2Proof.Machine

/-- Every record has the mnemonic `mov` (R140). -/
inductive Mnemonic where
  | mov
deriving DecidableEq, Repr

/-- An operand of a record (spec/00_scope.md, Types; R140, R141). -/
inductive Operand where
  /-- A register name, as width and code (R141). -/
  | register (w : Width) (code : Code3)
  /-- An absolute address, `u16`, read by `toNat`. -/
  | memoryDirect (address : Word16)
  /-- A base expression by its `RM` code, and a displacement `i16`, read by `signed16`. -/
  | memoryIndirect (base : Code3) (displacement : Word16)
  /-- A literal value `i16`, read by `signed16`, with its size hint. -/
  | immediate (value : Word16) (hint : SizeHint)
deriving DecidableEq, Repr

/-- The `Instruction` record, the block's output for one instruction (R140, R145). The first operand is the destination,
the second the source (R142). -/
structure Record where
  mnemonic : Mnemonic
  variant : Variant
  first : Operand
  second : Operand
  bytesConsumed : Nat
deriving DecidableEq, Repr

/-- The 2-bit `status` register (R13). -/
inductive Status where
  /-- The driver may take a step. -/
  | running
  /-- Successful completion. -/
  | done
  /-- Terminal failure `UnknownOpcode`. -/
  | failUnknownOpcode
  /-- Terminal failure `TruncatedInstruction`. -/
  | failTruncated
deriving DecidableEq, Repr

/-- The input buffer: the offsets that exist, each with its byte. An offset that is not listed does not exist (R30, R33,
R194). In canonical form the offsets are 0, 1, …, `LEN` − 1 in order. -/
abbrev Memory := List Host.Cell

structure State where
  /-- The offset of the next instruction's first byte (R10). A natural number: `POS_WIDTH` unbounded (R5, log 2). -/
  pos : Nat
  /-- The control and status register (R13). -/
  status : Status
  /-- The records emitted so far in this run, oldest first (R14). -/
  out : List Record
  /-- The input buffer `buf`; its length is `LEN` (R4, R17, R30). -/
  buf : Memory
deriving DecidableEq, Repr

/-- Why a step stops. -/
inductive Fault where
  /-- Raised by `step` alone, in a terminal status: no step is enabled until reset (R166). Safe: nothing is claimed of a
  step the block does not take. -/
  | runOver (status : Status)
deriving DecidableEq, Repr

/-- Why an instruction has no meaning. -/
inductive Refusal where
  /-- Raised by an arm of `exec` for an instruction not yet given its meaning; no arm raises it. Safe: it claims nothing. -/
  | notModelled (mnemonic : String)
deriving DecidableEq, Repr

/-- What a step or a meaning answers. -/
abbrev Result := Host.Outcome State Fault Refusal

/-- The machine right after reset (R190). The buffer belongs to the input collaborator (R191): here none has been supplied,
`LEN = 0` (DESIGN CHOICE, log 3). -/
def State.reset : State := { pos := 0, status := .running, out := [], buf := [] }

end Sys2Proof.Machine
end

