-- ==== Sys2Proof/Machine/Ops.lean ====
section
/-! DEFINITION. The shared operations: the buffer, the fetch window, emitting a record and advancing, taking a failure,
completion, reset and the supply of a buffer. -/

namespace Sys2Proof.Machine

/-! ### The input buffer (spec/20_memory.md) -/

/-- `LEN`, the number of bytes of the buffer (R4). -/
def Memory.size (m : Memory) : Nat := m.length

/-- `buf[a]`; none at an offset that does not exist (R30, R194). -/
def Memory.byte? : Memory → Nat → Option Byte
  | [], _ => none
  | (k, b) :: m, a => if k = a then some b else Memory.byte? m a

/-- The canonical form: the listed offsets are 0 to `LEN` − 1 in rising order, with no gap (R30, R33). -/
def Memory.wf (m : Memory) : Bool := m.map Prod.fst == List.range m.length

/-- The cells from offset `k` on. -/
def Memory.cellsFrom : Nat → List Byte → Memory
  | _, [] => []
  | k, b :: bs => (k, b) :: Memory.cellsFrom (k + 1) bs

/-- The buffer that holds a byte sequence from offset 0 (R33). -/
def Memory.ofBytes (bs : List Byte) : Memory := Memory.cellsFrom 0 bs

/-- The bytes of a buffer in increasing offset. -/
def Memory.bytes (m : Memory) : List Byte := m.map Prod.snd

/-- A buffer with `bs` placed from offset `a` on, by the input collaborator before a run (R196); offsets between the old
end and `a` are supplied as zero bytes. The block itself never writes (R38). -/
def Memory.place (m : Memory) (a : Nat) (bs : List Byte) : Memory :=
  Memory.ofBytes (m.bytes.take a ++ List.replicate (a - m.size) 0#8 ++ bs ++ m.bytes.drop (a + bs.length))

/-! ### The fetch window (R21) -/

/-- `avail = min(6, LEN − pos)` (R21). -/
def State.avail (s : State) : Nat := min Config.maxInstrLen (s.buf.size - s.pos)

/-- `win[k] = buf[pos + k]` for `0 ≤ k < avail` (R21). -/
def State.window (s : State) : List Byte :=
  (List.range s.avail).filterMap fun k => s.buf.byte? (s.pos + k)

/-- The instruction at `pos`, decoded from the window (R162). -/
def fetch (s : State) : Except Failure Instr := (decode s.window).map Prod.fst

/-! ### Emitting and advancing (R163) -/

/-- `emit(rec)`: append to `out` (R14, R163). -/
def State.emit (r : Record) (s : State) : State := { s with out := s.out ++ [r] }

/-- `pos <- pos + n`, the only change of `pos` in a run (R12, R165). -/
def State.advance (n : Nat) (s : State) : State := { s with pos := s.pos + n }

/-! ### Failures and completion -/

/-- The status a failure sets (R170, R171). -/
def Failure.status : Failure → Status
  | .unknownOpcode => .failUnknownOpcode
  | .truncatedInstruction => .failTruncated

/-- Taking a failure: `status` takes its code; `pos` and `out` are unchanged; there is no vector, handler, saved state or
mode (R164, R175). There is no return from it but reset (R177). -/
def State.takeFailure (f : Failure) (s : State) : State := { s with status := Failure.status f }

/-- Completion: `status` becomes `DONE`, nothing else changes (R161). -/
def State.complete (s : State) : State := { s with status := .done }

/-- The end of every instruction's meaning: with all bytes of the instruction inside the buffer its record is emitted and
`pos` advances by the length (R163); otherwise `TruncatedInstruction` is taken (R115, R171). -/
def present (r : Record) (s : State) : Result :=
  if s.pos + r.bytesConsumed ≤ s.buf.size then .next ((s.emit r).advance r.bytesConsumed)
  else .next (s.takeFailure .truncatedInstruction)

/-! ### What the outside does -/

/-- Asserting `rst`: every piece of state at its reset value, whatever it held (R190, R193); the buffer is the collaborator's
and is not touched (R191). -/
def State.assertRst (s : State) : State := { s with pos := 0, status := .running, out := [] }

/-- The start of a run over a byte sequence: the collaborator has fixed `buf` and `LEN`, then reset (R196). -/
def State.boot (bs : List Byte) : State := { State.reset with buf := Memory.ofBytes bs }

end Sys2Proof.Machine
end

