-- ==== Sys2Proof/Machine/Operands.lean ====
section
/-! DEFINITION. The operand forms: how the raw fields of an instruction become the operands of its record
(spec/42_operand_resolver.md section 1), and the sign handling of R107. -/

namespace Sys2Proof.Machine

/-- `sext_16`: an 8-bit value as a 16-bit pattern, sign-extended (R9). -/
def sext16 (v : Byte) : Word16 := v.signExtend 16

/-- `zext_16`: an 8-bit value as a 16-bit pattern, zero-extended (R9). -/
def zext16 (v : Byte) : Word16 := v.zeroExtend 16

/-- `signed16`: a 16-bit pattern reinterpreted as signed (R9). -/
def signed16 (v : Word16) : Int := if v.toNat < 32768 then (v.toNat : Int) else (v.toNat : Int) - 65536

/-- The accumulator: register code 0, `al` or `ax` by the width (R92). -/
def accumulator (w : Width) : Operand := .register w 0#3

/-- `MOD == 00`, not the direct address: a base expression with displacement 0 (R58, R102). -/
def baseOperand (rm : Code3) : Operand := .memoryIndirect rm 0#16

/-- `MOD == 01`: one displacement byte, sign-extended (R104). -/
def disp8Operand (rm : Code3) (disp : Byte) : Operand := .memoryIndirect rm (sext16 disp)

/-- `MOD == 10`: a 16-bit displacement (R105). -/
def disp16Operand (rm : Code3) (disp : Word16) : Operand := .memoryIndirect rm disp

/-- `W == 0`: one immediate byte, sign-extended, hint `Byte` (R106). -/
def immByteOperand (imm : Byte) : Operand := .immediate (sext16 imm) .byte

/-- `W == 1`: a 16-bit immediate, hint `Word` (R106). -/
def immWordOperand (imm : Word16) : Operand := .immediate imm .word

/-- The accumulator forms with `W == 0`: an 8-bit address, zero-extended (R61, R108). -/
def acc8Operand (addr : Byte) : Operand := .memoryDirect (zext16 addr)

/-- A record of the one mnemonic `mov` (R140). -/
def movRecord (v : Variant) (first second : Operand) (n : Nat) : Record :=
  { mnemonic := .mov, variant := v, first := first, second := second, bytesConsumed := n }

/-- The record of `RegMemToFromReg`: `D == 0` makes `REG` the source, `D == 1` the destination; `k` displacement bytes (R110). -/
def regMemRecord (d : Direction) (w : Width) (reg : Code3) (rmop : Operand) (k : Nat) : Record :=
  match d with
  | .regIsSource => movRecord .regMemToFromReg rmop (.register w reg) (2 + k)
  | .regIsDest => movRecord .regMemToFromReg (.register w reg) rmop (2 + k)

/-- The record of `ImmediateToReg`: `n` immediate bytes (R111). -/
def immRegRecord (w : Width) (reg : Code3) (imm : Operand) (n : Nat) : Record :=
  movRecord .immediateToReg (.register w reg) imm (1 + n)

/-- The record of `ImmediateToRegMem`: `k` displacement bytes and `n` immediate bytes (R112). -/
def immRmRecord (dst imm : Operand) (k n : Nat) : Record :=
  movRecord .immediateToRegMem dst imm (2 + k + n)

/-- The record of `MemToAcc`: the accumulator is the destination; `n` address bytes (R113). -/
def memToAccRecord (w : Width) (src : Operand) (n : Nat) : Record :=
  movRecord .memToAcc (accumulator w) src (1 + n)

/-- The record of `AccToMem`: the memory operand is the destination; `n` address bytes (R114). -/
def accToMemRecord (w : Width) (dst : Operand) (n : Nat) : Record :=
  movRecord .accToMem dst (accumulator w) (1 + n)

end Sys2Proof.Machine
end

