-- ==== Sys2Proof/Machine/Flags.lean ====
section
/-! DEFINITION. The block has no flags or condition codes (R19; every instruction rule says "Flags written: none"), so no
flag computation exists. Its only control and status register is `status`; this file gives the register's codes
(R13, R172). -/

namespace Sys2Proof.Machine

/-- The 2-bit code of the `status` register (R13). -/
def Status.code : Status → BitVec 2
  | .running => 0#2
  | .done => 1#2
  | .failUnknownOpcode => 2#2
  | .failTruncated => 3#2

/-- The three values other than `RUNNING` are terminal (R13, R166). -/
def Status.terminal : Status → Bool
  | .running => false
  | .done => true
  | .failUnknownOpcode => true
  | .failTruncated => true

end Sys2Proof.Machine
end

