-- ==== Sys2Proof/Machine/Accumulator.lean ====
section
/-! DEFINITION. The rows of `MemToAcc` (R113) and `AccToMem` (R114). With `W == 0` the address is 8 bits and the
instruction 2 bytes, as the spec's conflict C2 decides. -/

namespace Sys2Proof.Machine

/-- `al` from an 8-bit direct address (R113). -/
def execMemToAccByte (addr : Byte) (s : State) : Result :=
  present (memToAccRecord .byte (acc8Operand addr) 1) s

/-- `ax` from a 16-bit direct address (R113). -/
def execMemToAccWord (addr : Word16) (s : State) : Result :=
  present (memToAccRecord .word (.memoryDirect addr) 2) s

/-- `al` to an 8-bit direct address (R114). -/
def execAccToMemByte (addr : Byte) (s : State) : Result :=
  present (accToMemRecord .byte (acc8Operand addr) 1) s

/-- `ax` to a 16-bit direct address (R114). -/
def execAccToMemWord (addr : Word16) (s : State) : Result :=
  present (accToMemRecord .word (.memoryDirect addr) 2) s

end Sys2Proof.Machine
end

