-- ==== Sys2Proof/Machine/ImmediateToReg.lean ====
section
/-! DEFINITION. The two rows of `ImmediateToReg` (R111). -/

namespace Sys2Proof.Machine

/-- `W == 0`: a byte register and a byte immediate (R111). -/
def execImmRegByte (reg : Code3) (imm : Byte) (s : State) : Result :=
  present (immRegRecord .byte reg (immByteOperand imm) 1) s

/-- `W == 1`: a word register and a word immediate (R111). -/
def execImmRegWord (reg : Code3) (imm : Word16) (s : State) : Result :=
  present (immRegRecord .word reg (immWordOperand imm) 2) s

end Sys2Proof.Machine
end

