-- ==== Sys2Proof/Machine/ImmediateToRegMem.lean ====
section
/-! DEFINITION. The ten rows of `ImmediateToRegMem` (R112). `x` is the `REG` field, not examined: every value decodes alike
(R65). -/

namespace Sys2Proof.Machine

/-- `MOD == 11`: the register `RM` of the `W`-selected table, and a byte immediate (R112). -/
def execImmRmRegByte (_x : Code3) (rm : Code3) (imm : Byte) (s : State) : Result :=
  present (immRmRecord (.register .byte rm) (immByteOperand imm) 0 1) s

/-- `MOD == 00`, `RM == 110`: a direct address (R103), and a byte immediate (R112). -/
def execImmRmDirectByte (_x : Code3) (addr : Word16) (imm : Byte) (s : State) : Result :=
  present (immRmRecord (.memoryDirect addr) (immByteOperand imm) 2 1) s

/-- `MOD == 00`: a base expression, and a byte immediate (R112). -/
def execImmRmMemByte (_x : Code3) (rm : Code3) (imm : Byte) (s : State) : Result :=
  present (immRmRecord (baseOperand rm) (immByteOperand imm) 0 1) s

/-- `MOD == 01`: a base expression with an 8-bit displacement (R104), and a byte immediate (R112). -/
def execImmRmDisp8Byte (_x : Code3) (rm : Code3) (disp : Byte) (imm : Byte) (s : State) : Result :=
  present (immRmRecord (disp8Operand rm disp) (immByteOperand imm) 1 1) s

/-- `MOD == 10`: a base expression with a 16-bit displacement (R105), and a byte immediate (R112). -/
def execImmRmDisp16Byte (_x : Code3) (rm : Code3) (disp : Word16) (imm : Byte) (s : State) : Result :=
  present (immRmRecord (disp16Operand rm disp) (immByteOperand imm) 2 1) s

/-- `MOD == 11`: the register `RM` of the `W`-selected table, and a word immediate (R112). -/
def execImmRmRegWord (_x : Code3) (rm : Code3) (imm : Word16) (s : State) : Result :=
  present (immRmRecord (.register .word rm) (immWordOperand imm) 0 2) s

/-- `MOD == 00`, `RM == 110`: a direct address (R103), and a word immediate (R112). -/
def execImmRmDirectWord (_x : Code3) (addr : Word16) (imm : Word16) (s : State) : Result :=
  present (immRmRecord (.memoryDirect addr) (immWordOperand imm) 2 2) s

/-- `MOD == 00`: a base expression, and a word immediate (R112). -/
def execImmRmMemWord (_x : Code3) (rm : Code3) (imm : Word16) (s : State) : Result :=
  present (immRmRecord (baseOperand rm) (immWordOperand imm) 0 2) s

/-- `MOD == 01`: a base expression with an 8-bit displacement (R104), and a word immediate (R112). -/
def execImmRmDisp8Word (_x : Code3) (rm : Code3) (disp : Byte) (imm : Word16) (s : State) : Result :=
  present (immRmRecord (disp8Operand rm disp) (immWordOperand imm) 1 2) s

/-- `MOD == 10`: a base expression with a 16-bit displacement (R105), and a word immediate (R112). -/
def execImmRmDisp16Word (_x : Code3) (rm : Code3) (disp : Word16) (imm : Word16) (s : State) : Result :=
  present (immRmRecord (disp16Operand rm disp) (immWordOperand imm) 2 2) s

end Sys2Proof.Machine
end

