-- ==== Sys2Proof/Machine/RegMemToFromReg.lean ====
section
/-! DEFINITION. The five rows of `RegMemToFromReg` (R110). -/

namespace Sys2Proof.Machine

/-- `MOD == 11`: register and register (R110). -/
def execRmReg (d : Direction) (w : Width) (reg rm : Code3) (s : State) : Result :=
  present (regMemRecord d w reg (.register w rm) 0) s

/-- `MOD == 00`, `RM == 110`: register and direct address (R103, R110). -/
def execRmDirect (d : Direction) (w : Width) (reg : Code3) (addr : Word16) (s : State) : Result :=
  present (regMemRecord d w reg (.memoryDirect addr) 2) s

/-- `MOD == 00`: register and base expression (R110). -/
def execRmMem (d : Direction) (w : Width) (reg rm : Code3) (s : State) : Result :=
  present (regMemRecord d w reg (baseOperand rm) 0) s

/-- `MOD == 01`: register and base expression with an 8-bit displacement (R104, R110). -/
def execRmDisp8 (d : Direction) (w : Width) (reg rm : Code3) (disp : Byte) (s : State) : Result :=
  present (regMemRecord d w reg (disp8Operand rm disp) 1) s

/-- `MOD == 10`: register and base expression with a 16-bit displacement (R105, R110). -/
def execRmDisp16 (d : Direction) (w : Width) (reg rm : Code3) (disp : Word16) (s : State) : Result :=
  present (regMemRecord d w reg (disp16Operand rm disp) 2) s

end Sys2Proof.Machine
end

