-- ==== Sys2Proof/Machine/Dispatch.lean ====
section
/-! DEFINITION. One arm per constructor of Instr: the meaning of each row of spec/opcode_table.json. -/

namespace Sys2Proof.Machine

def exec (i : Instr) (s : State) : Host.Outcome State Fault Refusal :=
  match i with
  | .rmReg d w reg rm => Sys2Proof.Machine.execRmReg d w reg rm s
  | .rmDirect d w reg addr => Sys2Proof.Machine.execRmDirect d w reg addr s
  | .rmMem d w reg rm => Sys2Proof.Machine.execRmMem d w reg rm s
  | .rmDisp8 d w reg rm disp => Sys2Proof.Machine.execRmDisp8 d w reg rm disp s
  | .rmDisp16 d w reg rm disp => Sys2Proof.Machine.execRmDisp16 d w reg rm disp s
  | .immRegByte reg imm => Sys2Proof.Machine.execImmRegByte reg imm s
  | .immRegWord reg imm => Sys2Proof.Machine.execImmRegWord reg imm s
  | .immRmRegByte x rm imm => Sys2Proof.Machine.execImmRmRegByte x rm imm s
  | .immRmDirectByte x addr imm => Sys2Proof.Machine.execImmRmDirectByte x addr imm s
  | .immRmMemByte x rm imm => Sys2Proof.Machine.execImmRmMemByte x rm imm s
  | .immRmDisp8Byte x rm disp imm => Sys2Proof.Machine.execImmRmDisp8Byte x rm disp imm s
  | .immRmDisp16Byte x rm disp imm => Sys2Proof.Machine.execImmRmDisp16Byte x rm disp imm s
  | .immRmRegWord x rm imm => Sys2Proof.Machine.execImmRmRegWord x rm imm s
  | .immRmDirectWord x addr imm => Sys2Proof.Machine.execImmRmDirectWord x addr imm s
  | .immRmMemWord x rm imm => Sys2Proof.Machine.execImmRmMemWord x rm imm s
  | .immRmDisp8Word x rm disp imm => Sys2Proof.Machine.execImmRmDisp8Word x rm disp imm s
  | .immRmDisp16Word x rm disp imm => Sys2Proof.Machine.execImmRmDisp16Word x rm disp imm s
  | .memToAccByte addr => Sys2Proof.Machine.execMemToAccByte addr s
  | .memToAccWord addr => Sys2Proof.Machine.execMemToAccWord addr s
  | .accToMemByte addr => Sys2Proof.Machine.execAccToMemByte addr s
  | .accToMemWord addr => Sys2Proof.Machine.execAccToMemWord addr s

end Sys2Proof.Machine
end

