-- ==== Sys2Proof/Machine/Step.lean ====
section
/-! DEFINITION. The driver's step (spec/44_driver.md) and the placing of one instruction where it fetches. -/

namespace Sys2Proof.Machine

/-- One pass of the driver loop (R160): completion at the buffer's end (R161), a decoded instruction's meaning (R162, R163),
or its failure (R164). In a terminal status no step is enabled (R166). -/
def step (s : State) : Host.Outcome State Fault Refusal :=
  match s.status with
  | .running =>
    if s.pos = s.buf.size then .next s.complete
    else
      match fetch s with
      | .ok i => exec i s
      | .error f => .next (s.takeFailure f)
  | .done => .fault (.runOver .done)
  | .failUnknownOpcode => .fault (.runOver .failUnknownOpcode)
  | .failTruncated => .fault (.runOver .failTruncated)

/-- The state with a table word's instruction placed at `pos`, where the next step fetches, and the driver running (log 4). -/
def State.withFetchWord (s : State) (nbits w : Nat) : State :=
  { s with status := .running, buf := s.buf.place s.pos (tableBytes nbits w) }

end Sys2Proof.Machine
end

