-- ==== Sys2Proof/Machine/Resolver.lean ====
section
/-! DEFINITION. The spec's own pseudocode, transcribed over the buffer: `MemRead` (R37), `RMOperand` (R102), `ReadImm` (R106),
`AccAddr` (R108), the five entry points (R110 to R114), `DecodeAt` (R109) and the driver's `Step` (R160). It is a second
reading of the spec beside Decode.lean and the meanings, which the machine does not use to run; statements hold the
machine against it. The output port of R22 is read from it. -/

namespace Sys2Proof.Machine

/-- `MemRead(a, n)`: bounds-checked read of `n` bytes at offset `a` (R37). -/
def memRead (m : Memory) (a n : Nat) : Except Failure (List Byte) :=
  if a + n > m.size then .error .truncatedInstruction
  else .ok ((List.range n).filterMap fun k => m.byte? (a + k))

/-- `Read8(a)`: `MemRead(a, 1)` as one byte. -/
def read8 (m : Memory) (a : Nat) : Except Failure Byte :=
  match memRead m a 1 with
  | .ok [b] => .ok b
  | _ => .error .truncatedInstruction

/-- `Read16(a)`: the byte at the lower offset is the low byte, `(hi << 8) | lo` (R34). -/
def read16 (m : Memory) (a : Nat) : Except Failure Word16 :=
  match memRead m a 2 with
  | .ok [lo, hi] => .ok ((hi.zeroExtend 16 <<< 8) ||| lo.zeroExtend 16)
  | _ => .error .truncatedInstruction

/-- `RMOperand(p, w, MOD, RM)`: the operand and the number of bytes read after the ModR/M byte (R102). -/
def rmOperand (m : Memory) (p : Nat) (w : Width) (mod : BitVec 2) (rm : Code3) : Except Failure (Operand × Nat) :=
  if mod = 3#2 then .ok (.register w rm, 0)
  else if mod = 0#2 ∧ rm = 6#3 then do return (.memoryDirect (← read16 m (p + 2)), 2)
  else if mod = 0#2 then .ok (.memoryIndirect rm 0#16, 0)
  else if mod = 1#2 then do return (.memoryIndirect rm (sext16 (← read8 m (p + 2))), 1)
  else do return (.memoryIndirect rm (← read16 m (p + 2)), 2)

/-- `ReadImm(q, w)` (R106). -/
def readImm (m : Memory) (q : Nat) : Width → Except Failure (Operand × Nat)
  | .byte => do return (.immediate (sext16 (← read8 m q)) .byte, 1)
  | .word => do return (.immediate (← read16 m q) .word, 2)

/-- `AccAddr(p, w)`, the address as an operand (R108). -/
def accAddr (m : Memory) (p : Nat) : Width → Except Failure (Operand × Nat)
  | .byte => do return (.memoryDirect (zext16 (← read8 m (p + 1))), 1)
  | .word => do return (.memoryDirect (← read16 m (p + 1)), 2)

/-- The two bytes `MemRead(p, 2)` of the ModR/M formats (R101). -/
def readModrm (m : Memory) (p : Nat) : Except Failure (Byte × Byte) :=
  match memRead m p 2 with
  | .ok [b0, m1] => .ok (b0, m1)
  | _ => .error .truncatedInstruction

/-- The entry point of `RegMemToFromReg` (R110). -/
def resolveRegMem (m : Memory) (p : Nat) : Except Failure Record := do
  let b ← readModrm m p
  let w := Width.ofBit (bitField b.1 0)
  let op ← rmOperand m p w (modField b.2) (rmField b.2)
  let regop := Operand.register w (regField b.2)
  match Direction.ofBit (bitField b.1 1) with
  | .regIsSource => return { mnemonic := .mov, variant := .regMemToFromReg, first := op.1, second := regop, bytesConsumed := 2 + op.2 }
  | .regIsDest => return { mnemonic := .mov, variant := .regMemToFromReg, first := regop, second := op.1, bytesConsumed := 2 + op.2 }

/-- The entry point of `ImmediateToReg` (R111). -/
def resolveImmReg (m : Memory) (p : Nat) : Except Failure Record := do
  let b0 ← read8 m p
  let w := Width.ofBit (bitField b0 3)
  let imm ← readImm m (p + 1) w
  return { mnemonic := .mov, variant := .immediateToReg, first := .register w (rmField b0), second := imm.1, bytesConsumed := 1 + imm.2 }

/-- The entry point of `ImmediateToRegMem` (R112). -/
def resolveImmRm (m : Memory) (p : Nat) : Except Failure Record := do
  let b ← readModrm m p
  let w := Width.ofBit (bitField b.1 0)
  let dst ← rmOperand m p w (modField b.2) (rmField b.2)
  let imm ← readImm m (p + 2 + dst.2) w
  return { mnemonic := .mov, variant := .immediateToRegMem, first := dst.1, second := imm.1, bytesConsumed := 2 + dst.2 + imm.2 }

/-- The entry point of `MemToAcc` (R113). -/
def resolveMemToAcc (m : Memory) (p : Nat) : Except Failure Record := do
  let b0 ← read8 m p
  let w := Width.ofBit (bitField b0 0)
  let addr ← accAddr m p w
  return { mnemonic := .mov, variant := .memToAcc, first := .register w 0#3, second := addr.1, bytesConsumed := 1 + addr.2 }

/-- The entry point of `AccToMem` (R114). -/
def resolveAccToMem (m : Memory) (p : Nat) : Except Failure Record := do
  let b0 ← read8 m p
  let w := Width.ofBit (bitField b0 0)
  let addr ← accAddr m p w
  return { mnemonic := .mov, variant := .accToMem, first := addr.1, second := .register w 0#3, bytesConsumed := 1 + addr.2 }

/-- `DecodeAt(p)` (R109); `TruncatedInstruction` at an offset `≥ LEN` (R184). -/
def decodeAt (m : Memory) (p : Nat) : Except Failure Record :=
  match m.byte? p with
  | none => .error .truncatedInstruction
  | some b =>
    match classify b with
    | .error f => .error f
    | .ok .regMemToFromReg => resolveRegMem m p
    | .ok .immediateToReg => resolveImmReg m p
    | .ok .immediateToRegMem => resolveImmRm m p
    | .ok .memToAcc => resolveMemToAcc m p
    | .ok .accToMem => resolveAccToMem m p

/-- The driver's `Step(pos, status, out)`, for a state in which a step is enabled (R160 to R164). -/
def driverStep (m : Memory) (pos : Nat) (out : List Record) : Nat × Status × List Record :=
  if pos = m.size then (pos, .done, out)
  else
    match decodeAt m pos with
    | .error .unknownOpcode => (pos, .failUnknownOpcode, out)
    | .error .truncatedInstruction => (pos, .failTruncated, out)
    | .ok r => (pos + r.bytesConsumed, .running, out ++ [r])

/-- The record lines of the output port in the step taken from `s`: the record while `rec_valid` is 1, and none while it is 0,
when the lines carry no meaning (R22; log 6). -/
def State.recLines (s : State) : Option Record :=
  if s.status = .running ∧ s.pos < s.buf.size then (decodeAt s.buf s.pos).toOption else none

/-- The strobe `rec_valid` of the step taken from `s` (R22). -/
def State.recValid (s : State) : Bool := s.recLines.isSome

end Sys2Proof.Machine
end

