-- ==== Sys2Proof/Machine/Port.lean ====
section
/-! DEFINITION. The block from outside: what can happen to it, and what its record port shows while it happens (R22, R191). -/

namespace Sys2Proof.Machine

/-- What can happen to the block between two moments at which `pos` and `status` are looked at (log 28). -/
inductive Event where
  /-- `rst` is asserted (R23, R190). -/
  | rst
  /-- No step is taken: the block stands in its state, as in the reset state before its first step (R191), and while the
  fetch stage holds the step off (R198). -/
  | rest
  /-- The driver takes a step (R160). -/
  | step
deriving DecidableEq, Repr

/-- The effect of an event: reset (R190), nothing, or the driver's step (R160). -/
def State.onEvent (e : Event) (s : State) : Result :=
  match e with
  | .rst => .next s.assertRst
  | .rest => .next s
  | .step => Sys2Proof.Machine.step s

/-- The record lines of the output port during an event: a record in a step that decodes one, and no meaning otherwise, the
reset included (R22, R191; log 6). -/
def State.recLinesIn (e : Event) (s : State) : Option Record :=
  match e with
  | .rst => none
  | .rest => none
  | .step => s.recLines

/-- `rec_valid` during an event (R22): 0 while `rst` is asserted and in the reset state (R191). -/
def State.recValidIn (e : Event) (s : State) : Bool := (s.recLinesIn e).isSome

end Sys2Proof.Machine
end

