-- ==== Sys2Proof/Machine/Names.lean ====
section
/-! DEFINITION. The three fixed 8-entry naming tables (spec/41_naming_tables.md). They are constants, not state (R18), and
total on their index range (R94). -/

namespace Sys2Proof.Machine

/-- The byte-register table `ByteReg` (R90). -/
def byteReg : Vector String 8 := #v["al", "cl", "dl", "bl", "ah", "ch", "dh", "bh"]

/-- The word-register table `WordReg` (R91). -/
def wordReg : Vector String 8 := #v["ax", "cx", "dx", "bx", "sp", "bp", "si", "di"]

/-- The base-expression table `BaseExpr`, by the `RM` code (R93). -/
def baseExprTable : Vector String 8 := #v["bx + si", "bx + di", "bp + si", "bp + di", "si", "di", "bp", "bx"]

/-- `RegName(w, c)`: the width selects the table (R92). -/
def regName (w : Width) (c : Code3) : String :=
  match w with
  | .byte => byteReg[c.toNat]'c.isLt
  | .word => wordReg[c.toNat]'c.isLt

/-- `BaseExpr(c)` (R93). -/
def baseExpr (c : Code3) : String := baseExprTable[c.toNat]'c.isLt

end Sys2Proof.Machine
end

