-- ==== Sys2Proof/Machine/Text.lean ====
section
/-! DEFINITION. The text form of a record (spec/43_record_and_text.md section 2): a pure function of the record; no state
depends on it. -/

namespace Sys2Proof.Machine

/-- The decimal digit character of `d < 10`. -/
def digitChar (d : Nat) : Char := Char.ofNat (48 + d)

/-- The decimal digits of `n`, most significant first; `fuel > n` is enough. -/
def decDigits : Nat → Nat → List Char
  | 0, _ => []
  | fuel + 1, n => if n < 10 then [digitChar n] else decDigits fuel (n / 10) ++ [digitChar (n % 10)]

/-- `dec(n)`: the decimal numeral, no leading zero, `0` for zero (R151). -/
def dec (n : Nat) : String := String.ofList (decDigits (n + 1) n)

/-- `sdec(z)`: `dec(z)` if `z ≥ 0`, else `-` and `dec(−z)` (R150, R151). -/
def sdec (z : Int) : String := if 0 ≤ z then dec z.toNat else "-" ++ dec (-z).toNat

/-- Whether an operand is a memory location (R150). -/
def Operand.isMemory : Operand → Bool
  | .register _ _ => false
  | .memoryDirect _ => true
  | .memoryIndirect _ _ => true
  | .immediate _ _ => false

/-- The size keyword and the space after it (R150). -/
def SizeHint.keyword : SizeHint → String
  | .byte => "byte "
  | .word => "word "

/-- `OpText(op, rec)` with `dst` the record's first operand (R147 to R150). -/
def opText (op dst : Operand) : String :=
  match op with
  | .register w c => regName w c
  | .memoryDirect a => "[" ++ dec a.toNat ++ "]"
  | .memoryIndirect b d =>
    if signed16 d = 0 then "[" ++ baseExpr b ++ "]"
    else if 0 < signed16 d then "[" ++ baseExpr b ++ " + " ++ dec (signed16 d).toNat ++ "]"
    else "[" ++ baseExpr b ++ " - " ++ dec (-signed16 d).toNat ++ "]"
  | .immediate v h => (if dst.isMemory then SizeHint.keyword h else "") ++ sdec (signed16 v)

/-- `Text(rec)`: one line, without its terminator (R146). -/
def Record.text (r : Record) : String := "mov " ++ opText r.first r.first ++ "," ++ opText r.second r.first

end Sys2Proof.Machine
end

