-- ==== Sys2Proof/Machine/Wire.lean ====
section
/-! DEFINITION. The suggested wire packing of an operand (spec/92_eei_decisions.md D9): four fields, 22 bits together. Only
the abstract record is normative; the packing is the spec's suggestion and nothing in the machine depends on it. The
order of the fields in one 22-bit word is not stated, so the fields stay apart. -/

namespace Sys2Proof.Machine

/-- The four fields of a packed operand (D9). -/
structure WireOperand where
  kind : BitVec 2
  code : BitVec 3
  flag : BitVec 1
  value : BitVec 16
deriving DecidableEq, Repr

/-- The `flag` of an immediate: 0 `Byte`, 1 `Word` (D9). -/
def SizeHint.flag : SizeHint → BitVec 1
  | .byte => 0#1
  | .word => 1#1

/-- An operand on the wires; the unused fields of a kind are zero (D9). -/
def Operand.wire : Operand → WireOperand
  | .register w c => { kind := 0#2, code := c, flag := w.bit, value := 0#16 }
  | .memoryDirect a => { kind := 1#2, code := 0#3, flag := 0#1, value := a }
  | .memoryIndirect b d => { kind := 2#2, code := b, flag := 0#1, value := d }
  | .immediate v h => { kind := 3#2, code := 0#3, flag := SizeHint.flag h, value := v }

/-- The operand a consumer reads from the wires. -/
def WireOperand.operand (p : WireOperand) : Operand :=
  if p.kind = 0#2 then .register (Width.ofBit p.flag) p.code
  else if p.kind = 1#2 then .memoryDirect p.value
  else if p.kind = 2#2 then .memoryIndirect p.code p.value
  else .immediate p.value (if p.flag = 0#1 then .byte else .word)

end Sys2Proof.Machine
end

