-- ==== Sys2Proof/Safety.lean ====
section
/-! DEFINITION. What the statements call a good state, a well-shaped record, and the length table. -/

namespace Sys2Proof.Machine

/-- The state after a step that emits one `mov` record of the given form, operands and length: `out` has the record appended,
`pos` is advanced by the length, everything else is as it was (R163). -/
def State.moved (s : State) (v : Variant) (first second : Operand) (n : Nat) : State :=
  { s with pos := s.pos + n, out := s.out ++ [⟨.mov, v, first, second, n⟩] }

/-- The state after a step that ends the run with a status: nothing else changes (R161, R175). -/
def State.ended (s : State) (st : Status) : State := { s with status := st }

/-- `k` steps of the machine from a state. -/
def runSteps (k : Nat) (s : State) : Result := Host.Core.run Sys2Proof.core k s

/-- The operand kinds `RMOperand` can give (R102). -/
def Operand.isRegOrMem : Operand → Bool
  | .register _ _ => true
  | .memoryDirect _ => true
  | .memoryIndirect _ _ => true
  | .immediate _ _ => false

/-- Whether an operand may stand beside a register of width `w`: a register has the same width, memory always may, an
immediate never (R110, R143). -/
def Operand.pairsWith (w : Width) : Operand → Bool
  | .register w' _ => w' == w
  | .memoryDirect _ => true
  | .memoryIndirect _ _ => true
  | .immediate _ _ => false

/-- The table "operand kinds per form" (R143), with the length range R6. -/
def Record.wellShaped (r : Record) : Bool :=
  decide (Config.minInstrLen ≤ r.bytesConsumed) && decide (r.bytesConsumed ≤ Config.maxInstrLen) &&
  match r.variant, r.first, r.second with
  | .regMemToFromReg, .register w _, op => op.pairsWith w
  | .regMemToFromReg, op, .register w _ => op.pairsWith w
  | .immediateToReg, .register _ _, .immediate _ _ => true
  | .immediateToRegMem, op, .immediate _ _ => op.isRegOrMem
  | .memToAcc, .register _ c, .memoryDirect _ => c == 0#3
  | .accToMem, .memoryDirect _, .register _ c => c == 0#3
  | _, _, _ => false

/-- The sum of `bytes_consumed` over a sequence of records (R168). -/
def consumedSum : List Record → Nat
  | [] => 0
  | r :: rs => r.bytesConsumed + consumedSum rs

/-- The invariant of the block: the buffer is in canonical form, `pos` is at most `LEN` (R11) and is the sum of the lengths of
the records emitted (R168), `DONE` means the end of the buffer is reached (R13), and every record has a shape of R143. -/
structure State.Inv (s : State) : Prop where
  bufCanonical : s.buf.wf = true
  posInBuffer : s.pos ≤ s.buf.size
  posIsSum : s.pos = consumedSum s.out
  doneAtEnd : s.status = .done → s.pos = s.buf.size
  recordsShaped : ∀ r ∈ s.out, r.wellShaped = true

/-- `k(MOD, RM)`: the displacement or address bytes after the ModR/M byte (R57, R64). -/
def dispBytes (m : Byte) : Nat :=
  if modField m = 0#2 then (if rmField m = 6#3 then 2 else 0)
  else if modField m = 1#2 then 1
  else if modField m = 2#2 then 2
  else 0

/-- The length table (R64): the length of an instruction by its form, first byte and second byte. -/
def lengthTable (v : Variant) (b0 m : Byte) : Nat :=
  match v with
  | .regMemToFromReg => 2 + dispBytes m
  | .immediateToReg => 2 + (bitField b0 3).toNat
  | .immediateToRegMem => 2 + dispBytes m + 1 + (bitField b0 0).toNat
  | .memToAcc => 2 + (bitField b0 0).toNat
  | .accToMem => 2 + (bitField b0 0).toNat

end Sys2Proof.Machine
end

