-- ==== Sys2Proof/Certificates/Slice0/Obligations.lean ====
section
/-! DEFINITION. The statements for the provers, about the machine. -/

open Sys2Proof Sys2Proof.Machine

/-! ### The classifier and the encodings -/

/-- The classifier's five tests, as the ranges of first bytes they accept, and its failure (R81 to R86). -/
def Obligations.ClassifierAcceptsTheFiveRanges : Prop :=
  ∀ b : Byte,
    (0xC6 ≤ b.toNat ∧ b.toNat ≤ 0xC7 → classify b = .ok .immediateToRegMem) ∧
    (0xA0 ≤ b.toNat ∧ b.toNat ≤ 0xA1 → classify b = .ok .memToAcc) ∧
    (0xA2 ≤ b.toNat ∧ b.toNat ≤ 0xA3 → classify b = .ok .accToMem) ∧
    (0x88 ≤ b.toNat ∧ b.toNat ≤ 0x8B → classify b = .ok .regMemToFromReg) ∧
    (0xB0 ≤ b.toNat ∧ b.toNat ≤ 0xBF → classify b = .ok .immediateToReg) ∧
    (b.toNat < 0x88 ∨ (0x8B < b.toNat ∧ b.toNat < 0xA0) ∨ (0xA3 < b.toNat ∧ b.toNat < 0xB0) ∨
      (0xBF < b.toNat ∧ b.toNat < 0xC6) ∨ 0xC7 < b.toNat → classify b = .error .unknownOpcode)

/-- The five patterns are disjoint and their order is immaterial (R87): each mask test holds of exactly the bytes the
classifier gives that form, and taking the first of the five tests that holds, in any order of the tests, is the
classifier. -/
def Obligations.ClassifierPatternsAreDisjoint : Prop :=
  (∀ b : Byte,
    (b &&& 0xFE#8 = 0xC6#8 ↔ classify b = .ok .immediateToRegMem) ∧
    (b &&& 0xFE#8 = 0xA0#8 ↔ classify b = .ok .memToAcc) ∧
    (b &&& 0xFE#8 = 0xA2#8 ↔ classify b = .ok .accToMem) ∧
    (b &&& 0xFC#8 = 0x88#8 ↔ classify b = .ok .regMemToFromReg) ∧
    (b &&& 0xF0#8 = 0xB0#8 ↔ classify b = .ok .immediateToReg)) ∧
  ∀ tests : List (Byte × Byte × Variant),
    tests.Perm [(0xFE#8, 0xC6#8, .immediateToRegMem), (0xFE#8, 0xA0#8, .memToAcc), (0xFE#8, 0xA2#8, .accToMem),
      (0xFC#8, 0x88#8, .regMemToFromReg), (0xF0#8, 0xB0#8, .immediateToReg)] →
    ∀ b : Byte, (match tests.find? (fun t => b &&& t.1 == t.2.1) with
      | some t => .ok t.2.2
      | none => .error .unknownOpcode) = classify b

/-- Words written out bit by bit from the format tables R51 to R54 decode to the instructions they stand for. -/
def Obligations.WrittenOutWordsDecode : Prop :=
  decode [0b10001001#8, 0b11011001#8] = .ok (.rmReg .regIsSource .word 3#3 1#3, []) ∧
  decode [0b10001011#8, 0b01010110#8, 0b11111111#8] = .ok (.rmDisp8 .regIsDest .word 2#3 6#3 0xFF#8, []) ∧
  decode [0b10110001#8, 0b00001100#8] = .ok (.immRegByte 1#3 12#8, []) ∧
  decode [0b11000110#8, 0b00000111#8, 0b00000111#8] = .ok (.immRmMemByte 0#3 7#3 7#8, []) ∧
  decode [0b11000111#8, 0b00000110#8, 0b00001010#8, 0b00000000#8, 0b11111111#8, 0b00000000#8] =
    .ok (.immRmDirectWord 0#3 10#16 255#16, []) ∧
  decode [0b10100001#8, 0b11111011#8, 0b00001001#8] = .ok (.memToAccWord 2555#16, []) ∧
  decode [0b10100010#8, 0b00001111#8] = .ok (.accToMemByte 15#8, [])

/-- Decoding an encoded well-formed instruction gives it back, whatever bytes follow it. -/
def Obligations.DecodeOfEncode : Prop :=
  ∀ (i : Instr) (rest : List Byte), i.wf = true → decode (encode i ++ rest) = .ok (i, rest)

/-- What decodes is well-formed, and its bytes are the encoding: no byte sequence decodes to an instruction it does not
encode. -/
def Obligations.EncodeOfDecode : Prop :=
  ∀ (bs rest : List Byte) (i : Instr), decode bs = .ok (i, rest) → i.wf = true ∧ bs = encode i ++ rest

/-- The length of a decoded instruction is the entry of the length table R64 for its first two bytes (R62), and its form is
the one the first byte alone selects. -/
def Obligations.DecodedLengthIsTheTable : Prop :=
  ∀ (b0 m : Byte) (tail rest : List Byte) (i : Instr), decode (b0 :: m :: tail) = .ok (i, rest) →
    classify b0 = .ok i.variant ∧ i.length = lengthTable i.variant b0 m ∧
    tail.length + 2 = i.length + rest.length

/-! ### The effect of each row, on the instruction -/

/-- The five rows of `RegMemToFromReg` in both directions: the record emitted, the advance, and nothing else (R110). That
`D == 1` makes `REG` the destination is the spec's inference (log 14). -/
def Obligations.RegMemToFromRegRowsEmit : Prop :=
  ∀ (w : Width) (reg rm : Code3) (addr disp16 : Word16) (disp8 : Byte) (s : State),
    (s.pos + 2 ≤ s.buf.size →
      exec (.rmReg .regIsSource w reg rm) s = .next (s.moved .regMemToFromReg (.register w rm) (.register w reg) 2) ∧
      exec (.rmReg .regIsDest w reg rm) s = .next (s.moved .regMemToFromReg (.register w reg) (.register w rm) 2)) ∧
    (s.pos + 4 ≤ s.buf.size →
      exec (.rmDirect .regIsSource w reg addr) s =
        .next (s.moved .regMemToFromReg (.memoryDirect addr) (.register w reg) 4) ∧
      exec (.rmDirect .regIsDest w reg addr) s =
        .next (s.moved .regMemToFromReg (.register w reg) (.memoryDirect addr) 4)) ∧
    (s.pos + 2 ≤ s.buf.size → rm ≠ 6#3 →
      exec (.rmMem .regIsSource w reg rm) s =
        .next (s.moved .regMemToFromReg (.memoryIndirect rm 0#16) (.register w reg) 2) ∧
      exec (.rmMem .regIsDest w reg rm) s =
        .next (s.moved .regMemToFromReg (.register w reg) (.memoryIndirect rm 0#16) 2)) ∧
    (s.pos + 3 ≤ s.buf.size →
      ∃ d : Word16, d.toInt = (if disp8.toNat < 128 then (disp8.toNat : Int) else disp8.toNat - 256) ∧
      exec (.rmDisp8 .regIsSource w reg rm disp8) s =
        .next (s.moved .regMemToFromReg (.memoryIndirect rm d) (.register w reg) 3) ∧
      exec (.rmDisp8 .regIsDest w reg rm disp8) s =
        .next (s.moved .regMemToFromReg (.register w reg) (.memoryIndirect rm d) 3)) ∧
    (s.pos + 4 ≤ s.buf.size →
      exec (.rmDisp16 .regIsSource w reg rm disp16) s =
        .next (s.moved .regMemToFromReg (.memoryIndirect rm disp16) (.register w reg) 4) ∧
      exec (.rmDisp16 .regIsDest w reg rm disp16) s =
        .next (s.moved .regMemToFromReg (.register w reg) (.memoryIndirect rm disp16) 4))

/-- The two rows of `ImmediateToReg` (R111, R106). The size hint is the spec's inference (log 15). -/
def Obligations.ImmediateToRegRowsEmit : Prop :=
  ∀ (reg : Code3) (imm8 : Byte) (imm16 : Word16) (s : State),
    (s.pos + 2 ≤ s.buf.size →
      ∃ v : Word16, v.toInt = (if imm8.toNat < 128 then (imm8.toNat : Int) else imm8.toNat - 256) ∧
      exec (.immRegByte reg imm8) s =
        .next (s.moved .immediateToReg (.register .byte reg) (.immediate v .byte) 2)) ∧
    (s.pos + 3 ≤ s.buf.size →
      exec (.immRegWord reg imm16) s =
        .next (s.moved .immediateToReg (.register .word reg) (.immediate imm16 .word) 3))

/-- The five byte-immediate rows of `ImmediateToRegMem`, for every value `x` of the `REG` field (R112, R65). That `REG` is
not examined is the spec's decision D13 (log 11), the size hint its inference (log 15). -/
def Obligations.ImmediateByteToRegMemRowsEmit : Prop :=
  ∀ (x rm : Code3) (addr disp16 : Word16) (disp8 imm8 : Byte) (s : State),
    ∃ v d : Word16, v.toInt = (if imm8.toNat < 128 then (imm8.toNat : Int) else imm8.toNat - 256) ∧
    d.toInt = (if disp8.toNat < 128 then (disp8.toNat : Int) else disp8.toNat - 256) ∧
    (s.pos + 3 ≤ s.buf.size → exec (.immRmRegByte x rm imm8) s =
      .next (s.moved .immediateToRegMem (.register .byte rm) (.immediate v .byte) 3)) ∧
    (s.pos + 5 ≤ s.buf.size → exec (.immRmDirectByte x addr imm8) s =
      .next (s.moved .immediateToRegMem (.memoryDirect addr) (.immediate v .byte) 5)) ∧
    (s.pos + 3 ≤ s.buf.size → rm ≠ 6#3 → exec (.immRmMemByte x rm imm8) s =
      .next (s.moved .immediateToRegMem (.memoryIndirect rm 0#16) (.immediate v .byte) 3)) ∧
    (s.pos + 4 ≤ s.buf.size → exec (.immRmDisp8Byte x rm disp8 imm8) s =
      .next (s.moved .immediateToRegMem (.memoryIndirect rm d) (.immediate v .byte) 4)) ∧
    (s.pos + 5 ≤ s.buf.size → exec (.immRmDisp16Byte x rm disp16 imm8) s =
      .next (s.moved .immediateToRegMem (.memoryIndirect rm disp16) (.immediate v .byte) 5))

/-- The five word-immediate rows of `ImmediateToRegMem`, for every value `x` of the `REG` field (R112, R65). That `REG` is
not examined is the spec's decision D13 (log 11), the size hint its inference (log 15). -/
def Obligations.ImmediateWordToRegMemRowsEmit : Prop :=
  ∀ (x rm : Code3) (addr disp16 imm16 : Word16) (disp8 : Byte) (s : State),
    ∃ d : Word16, d.toInt = (if disp8.toNat < 128 then (disp8.toNat : Int) else disp8.toNat - 256) ∧
    (s.pos + 4 ≤ s.buf.size → exec (.immRmRegWord x rm imm16) s =
      .next (s.moved .immediateToRegMem (.register .word rm) (.immediate imm16 .word) 4)) ∧
    (s.pos + 6 ≤ s.buf.size → exec (.immRmDirectWord x addr imm16) s =
      .next (s.moved .immediateToRegMem (.memoryDirect addr) (.immediate imm16 .word) 6)) ∧
    (s.pos + 4 ≤ s.buf.size → rm ≠ 6#3 → exec (.immRmMemWord x rm imm16) s =
      .next (s.moved .immediateToRegMem (.memoryIndirect rm 0#16) (.immediate imm16 .word) 4)) ∧
    (s.pos + 5 ≤ s.buf.size → exec (.immRmDisp8Word x rm disp8 imm16) s =
      .next (s.moved .immediateToRegMem (.memoryIndirect rm d) (.immediate imm16 .word) 5)) ∧
    (s.pos + 6 ≤ s.buf.size → exec (.immRmDisp16Word x rm disp16 imm16) s =
      .next (s.moved .immediateToRegMem (.memoryIndirect rm disp16) (.immediate imm16 .word) 6))

/-- The rows of `MemToAcc` and `AccToMem`; an 8-bit address is zero-extended (R108, R113, R114), which is the spec's
decision D12 (log 12). -/
def Obligations.AccumulatorRowsEmit : Prop :=
  ∀ (addr8 : Byte) (addr16 : Word16) (s : State),
    (s.pos + 2 ≤ s.buf.size → ∃ a : Word16, a.toNat = addr8.toNat ∧
      exec (.memToAccByte addr8) s = .next (s.moved .memToAcc (.register .byte 0#3) (.memoryDirect a) 2) ∧
      exec (.accToMemByte addr8) s = .next (s.moved .accToMem (.memoryDirect a) (.register .byte 0#3) 2)) ∧
    (s.pos + 3 ≤ s.buf.size →
      exec (.memToAccWord addr16) s = .next (s.moved .memToAcc (.register .word 0#3) (.memoryDirect addr16) 3) ∧
      exec (.accToMemWord addr16) s = .next (s.moved .accToMem (.memoryDirect addr16) (.register .word 0#3) 3))

/-- An instruction whose bytes extend past `LEN` takes `TruncatedInstruction`: the status alone changes (R115, R175). -/
def Obligations.ExecTakesTruncationPastTheEnd : Prop :=
  ∀ (i : Instr) (s : State), i.wf = true → s.buf.size < s.pos + i.length → exec i s = .next (s.ended .failTruncated)

/-- The frame of every instruction: no byte of the buffer changes; either the status is kept, `pos` advances by the length
and one record of the instruction's form is appended, or the failure is taken with `pos` and `out` kept. -/
def Obligations.ExecFrame : Prop :=
  ∀ (i : Instr) (s t : State), i.wf = true → exec i s = .next t →
    t.buf = s.buf ∧ (∀ a, t.buf.byte? a = s.buf.byte? a) ∧
    ((t.status = s.status ∧ t.pos = s.pos + i.length ∧
        ∃ r : Record, t.out = s.out ++ [r] ∧ r.variant = i.variant ∧ r.bytesConsumed = i.length) ∨
      (t.status = .failTruncated ∧ t.pos = s.pos ∧ t.out = s.out))

/-! ### One step -/

/-- A step runs the decoded instruction: where the window at `pos` decodes, `step` is `exec` of what it decodes to, with
nothing added (R162). -/
def Obligations.StepRunsTheDecodedInstruction : Prop :=
  ∀ (s : State) (i : Instr) (rest : List Byte), s.status = .running → decode s.window = .ok (i, rest) →
    step s = exec i s

/-- Where the bytes of the buffer from `pos` on are the encoding of a well-formed instruction, the step completes it: it is
`exec` of it, the run goes on, `pos` is advanced by the length and one record is appended (R162, R163). -/
def Obligations.StepRunsTheInstructionInTheBuffer : Prop :=
  ∀ (s : State) (i : Instr), s.buf.wf = true → s.status = .running → i.wf = true →
    (∀ k, k < i.length → s.buf.byte? (s.pos + k) = (encode i)[k]?) →
    ∃ (t : State) (r : Record), step s = .next t ∧ exec i s = .next t ∧
      t = { s with pos := s.pos + i.length, out := s.out ++ [r] } ∧ r.variant = i.variant ∧ r.bytesConsumed = i.length

/-- A step at the end of the buffer makes the status `DONE` and changes nothing else; with `LEN == 0` it is the first step
(R161). That `DONE` takes a step of its own is the spec's decision D19 (log 20). -/
def Obligations.StepCompletesAtTheBufferEnd : Prop :=
  (∀ s : State, s.status = .running → s.pos = s.buf.size → step s = .next (s.ended .done)) ∧
  step (State.boot []) = .next ((State.boot []).ended .done)

/-- A first byte that matches no pattern sets `FAIL_UNKNOWN_OPCODE`; `pos`, `out` and the buffer are kept, and from there no
step leads on (R170). -/
def Obligations.StepTakesUnknownOpcode : Prop :=
  ∀ (s : State) (b : Byte), s.buf.wf = true → s.status = .running → s.buf.byte? s.pos = some b →
    classify b = .error .unknownOpcode →
    step s = .next (s.ended .failUnknownOpcode) ∧ ∀ t : State, step (s.ended .failUnknownOpcode) ≠ .next t

/-- A first byte that classifies, with a needed byte at an offset `≥ LEN`, sets `FAIL_TRUNCATED`; `pos`, `out` and the
buffer are kept, and from there no step leads on (R171). The needed bytes are two, and then as many as the length table
says for those two. The failure happens only within the final 1 to 5 bytes of the buffer. -/
def Obligations.StepTakesTruncation : Prop :=
  ∀ (s : State) (b0 : Byte) (v : Variant), s.buf.wf = true → s.status = .running → s.buf.byte? s.pos = some b0 →
    classify b0 = .ok v →
    ((s.buf.size < s.pos + 2 ∨
        ∃ m : Byte, s.buf.byte? (s.pos + 1) = some m ∧ s.buf.size < s.pos + lengthTable v b0 m) →
      step s = .next (s.ended .failTruncated)) ∧
    (step s = .next (s.ended .failTruncated) → s.pos + 1 ≤ s.buf.size ∧ s.buf.size ≤ s.pos + 5) ∧
    ∀ t : State, step (s.ended .failTruncated) ≠ .next t

/-- A first byte that classifies, with every needed byte in the buffer, is decoded: one record of that form and of the
table's length is emitted and `pos` advances by it (R115, R163). -/
def Obligations.StepDecodesWhenTheBytesArePresent : Prop :=
  ∀ (s : State) (b0 m : Byte) (v : Variant), s.buf.wf = true → s.status = .running → s.buf.byte? s.pos = some b0 →
    s.buf.byte? (s.pos + 1) = some m → classify b0 = .ok v → s.pos + lengthTable v b0 m ≤ s.buf.size →
    ∃ first second : Operand, step s = .next (s.moved v first second (lengthTable v b0 m))

/-- In a status other than `RUNNING` no step is enabled (R166). The named stop is the model's form of it (log 5). -/
def Obligations.TerminalStatusEnablesNoStep : Prop :=
  ∀ s : State, s.status ≠ .running → step s = .fault (.runOver s.status)

/-- Every running state steps, to one of three next states: completion at the end of the buffer, one well-shaped record with
its bytes inside the buffer, or a failure that keeps `pos` and `out` (R161, R163, R164). -/
def Obligations.RunningStateAlwaysSteps : Prop :=
  ∀ s : State, s.status = .running → ∃ t : State, step s = .next t ∧
    ((s.pos = s.buf.size ∧ t = s.ended .done) ∨
     (∃ r : Record, t = { s with pos := s.pos + r.bytesConsumed, out := s.out ++ [r] } ∧ r.wellShaped = true ∧
        t.pos ≤ s.buf.size) ∨
     (s.pos ≠ s.buf.size ∧ (t = s.ended .failUnknownOpcode ∨ t = s.ended .failTruncated)))

/-- The machine's step is the spec's `Step` over its `DecodeAt` (R109 to R114, R160 to R164), for every canonical buffer. -/
def Obligations.StepIsTheDriverStep : Prop :=
  ∀ s : State, s.buf.wf = true → s.status = .running →
    step s = .next { s with
      pos := (driverStep s.buf s.pos s.out).1
      status := (driverStep s.buf s.pos s.out).2.1
      out := (driverStep s.buf s.pos s.out).2.2 }

/-- Success (R163): where `DecodeAt(pos)` is a record, the step presents and emits it and advances `pos` by its length,
which stays within `LEN`; the status stays `RUNNING`. The record describes the bytes at `pos`: they are the encoding of
a well-formed instruction of that length, and the step is the meaning of that instruction. -/
def Obligations.DecodedRecordIsEmitted : Prop :=
  ∀ (s : State) (r : Record), s.buf.wf = true → s.status = .running → decodeAt s.buf s.pos = .ok r →
    step s = .next { s with pos := s.pos + r.bytesConsumed, out := s.out ++ [r] } ∧
    s.pos + r.bytesConsumed ≤ s.buf.size ∧ s.recLines = some r ∧ s.recValid = true ∧
    ∃ i : Instr, i.wf = true ∧ i.length = r.bytesConsumed ∧ exec i s = step s ∧
      ∀ k, k < i.length → s.buf.byte? (s.pos + k) = (encode i)[k]?

/-- Failure (R164, R175): where `DecodeAt(pos)` fails, the status takes the failure's code, `pos`, `out` and the buffer are
unchanged, and no record is presented. -/
def Obligations.FailedDecodeChangesTheStatusAlone : Prop :=
  ∀ (s : State) (f : Failure), s.buf.wf = true → s.status = .running → s.pos < s.buf.size →
    decodeAt s.buf s.pos = .error f →
    (f = .unknownOpcode → step s = .next (s.ended .failUnknownOpcode)) ∧
    (f = .truncatedInstruction → step s = .next (s.ended .failTruncated)) ∧ s.recValid = false

/-- The result of a step depends on the window alone (R21): two running states with the same window, whatever their buffers,
positions and records, change in the same way. -/
def Obligations.WindowDeterminesTheStep : Prop :=
  ∀ s₁ s₂ : State, s₁.buf.wf = true → s₂.buf.wf = true → s₁.status = .running → s₂.status = .running →
    s₁.pos ≤ s₁.buf.size → s₂.pos ≤ s₂.buf.size → s₁.window = s₂.window →
    ∃ (n : Nat) (st : Status) (rs : List Record),
      step s₁ = .next { s₁ with pos := s₁.pos + n, status := st, out := s₁.out ++ rs } ∧
      step s₂ = .next { s₂ with pos := s₂.pos + n, status := st, out := s₂.out ++ rs }

/-- The output port: the record presented in a step is the one appended to `out`, and `rec_valid` is 1 exactly in the steps
that decode an instruction, after which the block is still running (R22). -/
def Obligations.RecordPortMatchesOut : Prop :=
  ∀ s t : State, s.buf.wf = true → step s = .next t →
    t.out = s.out ++ s.recLines.toList ∧ (s.recValid = true ↔ t.status = .running)

/-! ### One step, from the bytes of the buffer -/

/-- `RegMemToFromReg` read from the buffer: `D`, `W`, `MOD`, `REG` and `RM` are taken from the two bytes by arithmetic; for
every row the step emits the record R110 gives, and takes `TruncatedInstruction` where a byte of the row is missing. The
byte order of the direct address is the spec's decision D11 (log 13), the meaning of `D == 1` its inference (log 14). -/
def Obligations.RegMemToFromRegFromBytes : Prop :=
  ∀ (s : State) (b0 : Byte), s.buf.wf = true → s.status = .running → s.buf.byte? s.pos = some b0 →
    0x88 ≤ b0.toNat → b0.toNat ≤ 0x8B →
    (s.buf.size < s.pos + 2 → step s = .next (s.ended .failTruncated)) ∧
    ∀ (m : Byte) (w : Width) (reg rm : Code3), s.buf.byte? (s.pos + 1) = some m →
      w = (if b0.toNat % 2 = 0 then .byte else .word) → reg.toNat = m.toNat / 8 % 8 → rm.toNat = m.toNat % 8 →
      let put (op : Operand) (n : Nat) : State :=
        if b0.toNat / 2 % 2 = 0 then s.moved .regMemToFromReg op (.register w reg) n
        else s.moved .regMemToFromReg (.register w reg) op n
      (m.toNat / 64 = 3 → step s = .next (put (.register w rm) 2)) ∧
      (m.toNat / 64 = 0 → rm.toNat ≠ 6 → step s = .next (put (.memoryIndirect rm 0#16) 2)) ∧
      (∀ lo hi : Byte, m.toNat / 64 = 0 → rm.toNat = 6 → s.buf.byte? (s.pos + 2) = some lo →
        s.buf.byte? (s.pos + 3) = some hi →
        ∃ a : Word16, a.toNat = lo.toNat + 256 * hi.toNat ∧ step s = .next (put (.memoryDirect a) 4)) ∧
      (∀ lo : Byte, m.toNat / 64 = 1 → s.buf.byte? (s.pos + 2) = some lo →
        ∃ d : Word16, d.toInt = (if lo.toNat < 128 then (lo.toNat : Int) else lo.toNat - 256) ∧
          step s = .next (put (.memoryIndirect rm d) 3)) ∧
      (∀ lo hi : Byte, m.toNat / 64 = 2 → s.buf.byte? (s.pos + 2) = some lo → s.buf.byte? (s.pos + 3) = some hi →
        ∃ d : Word16, d.toNat = lo.toNat + 256 * hi.toNat ∧ step s = .next (put (.memoryIndirect rm d) 4)) ∧
      (m.toNat / 64 = 1 → s.buf.size < s.pos + 3 → step s = .next (s.ended .failTruncated)) ∧
      ((m.toNat / 64 = 2 ∨ (m.toNat / 64 = 0 ∧ rm.toNat = 6)) → s.buf.size < s.pos + 4 →
        step s = .next (s.ended .failTruncated))

/-- `ImmediateToReg` read from the buffer, with its truncation (R111). The size hint is the spec's inference (log 15). -/
def Obligations.ImmediateToRegFromBytes : Prop :=
  ∀ (s : State) (b0 : Byte) (reg : Code3), s.buf.wf = true → s.status = .running → s.buf.byte? s.pos = some b0 →
    reg.toNat = b0.toNat % 8 →
    (∀ lo : Byte, 0xB0 ≤ b0.toNat → b0.toNat ≤ 0xB7 → s.buf.byte? (s.pos + 1) = some lo →
      ∃ v : Word16, v.toInt = (if lo.toNat < 128 then (lo.toNat : Int) else lo.toNat - 256) ∧
        step s = .next (s.moved .immediateToReg (.register .byte reg) (.immediate v .byte) 2)) ∧
    (∀ lo hi : Byte, 0xB8 ≤ b0.toNat → b0.toNat ≤ 0xBF → s.buf.byte? (s.pos + 1) = some lo →
      s.buf.byte? (s.pos + 2) = some hi →
      ∃ v : Word16, v.toNat = lo.toNat + 256 * hi.toNat ∧
        step s = .next (s.moved .immediateToReg (.register .word reg) (.immediate v .word) 3)) ∧
    (0xB0 ≤ b0.toNat → b0.toNat ≤ 0xB7 → s.buf.size < s.pos + 2 → step s = .next (s.ended .failTruncated)) ∧
    (0xB8 ≤ b0.toNat → b0.toNat ≤ 0xBF → s.buf.size < s.pos + 3 → step s = .next (s.ended .failTruncated))

/-- `ImmediateToRegMem` read from the buffer: the displacement or address bytes come first, then the immediate of width `W`;
with a byte missing, `TruncatedInstruction` (R112). `k` is the number of bytes between the ModR/M byte and the
immediate, `dst` the operand they give. The byte order of the direct address is the spec's decision D11 (log 13), the
size hint its inference (log 15). -/
def Obligations.ImmediateToRegMemFromBytes : Prop :=
  ∀ (s : State) (b0 : Byte), s.buf.wf = true → s.status = .running → s.buf.byte? s.pos = some b0 →
    0xC6 ≤ b0.toNat → b0.toNat ≤ 0xC7 →
    (s.buf.size < s.pos + 2 → step s = .next (s.ended .failTruncated)) ∧
    ∀ (m lo hi e0 e1 : Byte) (w : Width) (rm : Code3) (dst : Operand) (k : Nat), s.buf.byte? (s.pos + 1) = some m →
      w = (if b0.toNat % 2 = 0 then .byte else .word) → rm.toNat = m.toNat % 8 →
      ((m.toNat / 64 = 3 ∧ k = 0 ∧ dst = .register w rm) ∨
       (m.toNat / 64 = 0 ∧ rm.toNat ≠ 6 ∧ k = 0 ∧ dst = .memoryIndirect rm 0#16) ∨
       (m.toNat / 64 = 0 ∧ rm.toNat = 6 ∧ k = 2 ∧
          ∃ a : Word16, a.toNat = lo.toNat + 256 * hi.toNat ∧ dst = .memoryDirect a) ∨
       (m.toNat / 64 = 1 ∧ k = 1 ∧ ∃ d : Word16, dst = .memoryIndirect rm d ∧
          d.toInt = (if lo.toNat < 128 then (lo.toNat : Int) else lo.toNat - 256)) ∨
       (m.toNat / 64 = 2 ∧ k = 2 ∧ ∃ d : Word16, d.toNat = lo.toNat + 256 * hi.toNat ∧ dst = .memoryIndirect rm d)) →
      ((1 ≤ k → s.buf.byte? (s.pos + 2) = some lo) → (2 ≤ k → s.buf.byte? (s.pos + 3) = some hi) →
        s.buf.byte? (s.pos + 2 + k) = some e0 → (w = .word → s.buf.byte? (s.pos + 3 + k) = some e1) →
        (w = .byte → ∃ v : Word16, v.toInt = (if e0.toNat < 128 then (e0.toNat : Int) else e0.toNat - 256) ∧
          step s = .next (s.moved .immediateToRegMem dst (.immediate v .byte) (3 + k))) ∧
        (w = .word → ∃ v : Word16, v.toNat = e0.toNat + 256 * e1.toNat ∧
          step s = .next (s.moved .immediateToRegMem dst (.immediate v .word) (4 + k)))) ∧
      (s.buf.size < s.pos + 3 + k + b0.toNat % 2 → step s = .next (s.ended .failTruncated))

/-- The accumulator forms read from the buffer: the accumulator is the destination of `A0`, `A1` and the source of `A2`,
`A3`; the address is one byte, zero-extended, or two, low byte first; with a byte missing, `TruncatedInstruction` (R113,
R114). The zero-extension is the spec's decision D12 (log 12). -/
def Obligations.AccumulatorFormsFromBytes : Prop :=
  ∀ (s : State) (b0 : Byte), s.buf.wf = true → s.status = .running → s.buf.byte? s.pos = some b0 →
    (∀ lo : Byte, s.buf.byte? (s.pos + 1) = some lo → ∃ a : Word16, a.toNat = lo.toNat ∧
      (b0 = 0xA0#8 → step s = .next (s.moved .memToAcc (.register .byte 0#3) (.memoryDirect a) 2)) ∧
      (b0 = 0xA2#8 → step s = .next (s.moved .accToMem (.memoryDirect a) (.register .byte 0#3) 2))) ∧
    (∀ lo hi : Byte, s.buf.byte? (s.pos + 1) = some lo → s.buf.byte? (s.pos + 2) = some hi →
      ∃ a : Word16, a.toNat = lo.toNat + 256 * hi.toNat ∧
      (b0 = 0xA1#8 → step s = .next (s.moved .memToAcc (.register .word 0#3) (.memoryDirect a) 3)) ∧
      (b0 = 0xA3#8 → step s = .next (s.moved .accToMem (.memoryDirect a) (.register .word 0#3) 3))) ∧
    ((b0 = 0xA0#8 ∨ b0 = 0xA2#8) → s.buf.size < s.pos + 2 → step s = .next (s.ended .failTruncated)) ∧
    ((b0 = 0xA1#8 ∨ b0 = 0xA3#8) → s.buf.size < s.pos + 3 → step s = .next (s.ended .failTruncated))

/-- In `ImmediateToRegMem` the `REG` field is not examined (R65): with two ModR/M bytes that differ at most in `REG`, at any
place in any buffer, the step has the same outcome but for the buffer itself. The spec's decision D13 (log 11). -/
def Obligations.ImmediateToRegMemIgnoresReg : Prop :=
  ∀ (before after : List Byte) (b0 m m' : Byte) (out : List Record), classify b0 = .ok .immediateToRegMem →
    m.toNat / 64 = m'.toNat / 64 → m.toNat % 8 = m'.toNat % 8 →
    let at_ (x : Byte) : State :=
      { pos := before.length, status := .running, out := out, buf := Memory.ofBytes (before ++ b0 :: x :: after) }
    ∃ t t' : State, step (at_ m) = .next t ∧ step (at_ m') = .next t' ∧
      t.pos = t'.pos ∧ t.status = t'.status ∧ t.out = t'.out

/-! ### Failures -/

/-- `DecodeAt(p)` with `p ≥ LEN` is `TruncatedInstruction` (R184), the spec's decision D22 (log 26), and so is decoding no
bytes. -/
def Obligations.DecodePastTheEndIsTruncated : Prop :=
  (∀ (m : Memory) (p : Nat), m.wf = true → m.size ≤ p → decodeAt m p = .error .truncatedInstruction) ∧
  decode [] = .error .truncatedInstruction

/-- Classification comes before resolution (R174): a lone byte that does not classify is `UnknownOpcode` although it is the
last byte; a lone byte that classifies is `TruncatedInstruction`. That a buffer of length 1, outside the input contract,
has this run is the spec's decision D6 (log 27). -/
def Obligations.LoneByteFailurePriority : Prop :=
  ∀ b : Byte,
    (classify b = .error .unknownOpcode → step (State.boot [b]) = .next ((State.boot [b]).ended .failUnknownOpcode)) ∧
    (∀ v, classify b = .ok v → step (State.boot [b]) = .next ((State.boot [b]).ended .failTruncated))

/-! ### Reset -/

/-- Asserting `rst` puts `pos`, `status` and `out` at their reset values, whatever they held (R190); the buffer is the
collaborator's and is kept (R191); the reset state has those values. They are the spec's decisions D4 and D16 (log 24).
-/ def Obligations.ResetPutsEveryValue : Prop := (∀ s : State, s.assertRst.pos = 0 ∧ s.assertRst.status = .running ∧
s.assertRst.out = [] ∧ s.assertRst.buf = s.buf) ∧ State.reset.pos = 0 ∧ State.reset.status = .running ∧ State.reset.out
= [] /-- The invariant holds at the start of a run over any byte sequence, and of the reset state. -/
def Obligations.StartOfARunMeetsTheInvariant : Prop :=
  (∀ bs : List Byte, (State.boot bs).Inv) ∧ State.reset.Inv ∧ ∀ s : State, s.buf.wf = true → s.assertRst.Inv

/-! ### The whole machine -/

/-- Every step keeps the invariant: the canonical buffer, `pos ≤ LEN` (R11), `pos` the sum of the lengths emitted (R168),
`DONE` only at the end (R13), every record of a shape of R143. -/
def Obligations.StepKeepsTheInvariant : Prop :=
  ∀ s t : State, s.Inv → step s = .next t → t.Inv

/-- Control transfer (R165): the only change of `pos` is the advance by the length of the one record the step emits, and
`pos` never decreases within a run; a run changes neither the buffer nor a record already emitted. -/
def Obligations.RunsOnlyAppendAndAdvance : Prop :=
  (∀ s t : State, step s = .next t → (t.pos = s.pos ∧ t.out = s.out) ∨
    ∃ r : Record, t.out = s.out ++ [r] ∧ t.pos = s.pos + r.bytesConsumed ∧ t.status = .running) ∧
  ∀ (k : Nat) (s t : State), runSteps k s = .next t → t.buf = s.buf ∧ s.out <+: t.out ∧ s.pos ≤ t.pos

/-- At every moment of a run `pos` is the sum of the lengths of the records emitted; in `DONE` the sum is `LEN`; in a
failure status it is the offset of the instruction that failed (R15, R168; that last clause is the spec's inference). -/
def Obligations.RunLengthSum : Prop :=
  ∀ (bs : List Byte) (k : Nat) (t : State), runSteps k (State.boot bs) = .next t →
    t.pos = consumedSum t.out ∧
    (t.status = .done → consumedSum t.out = bs.length) ∧
    (t.status = .failUnknownOpcode → decodeAt (Memory.ofBytes bs) (consumedSum t.out) = .error .unknownOpcode) ∧
    (t.status = .failTruncated → decodeAt (Memory.ofBytes bs) (consumedSum t.out) = .error .truncatedInstruction)

/-- Every run is finite: from a running state with `pos ≤ LEN` a terminal status is reached in at most half the bytes left
and one step more, and there no step is enabled (R166). -/
def Obligations.EveryRunTerminates : Prop :=
  ∀ s : State, s.status = .running → s.pos ≤ s.buf.size →
    ∃ (k : Nat) (t : State), k ≤ (s.buf.size - s.pos) / 2 + 1 ∧ runSteps k s = .next t ∧ t.status ≠ .running ∧
      step t = .fault (.runOver t.status)

/-- A buffer that is the encodings of well-formed instructions one after another runs to `DONE` in one step an instruction
and one more, and emits the records of those instructions, in order (R163, R195). That `DONE` takes the one step more is
the spec's decision D19 (log 20), the reading of the input contract its decision D6 (log 27). -/
def Obligations.EncodedProgramRunsToDone : Prop :=
  ∀ is : List Instr, (∀ i ∈ is, i.wf = true) →
    ∃ t : State, runSteps (is.length + 1) (State.boot (is.flatMap encode)) = .next t ∧ t.status = .done ∧
      t.pos = (is.flatMap encode).length ∧
      List.Forall₂ (fun i r => ∀ s : State, s.pos + i.length ≤ s.buf.size →
        exec i s = .next { s with pos := s.pos + i.length, out := s.out ++ [r] }) is t.out

/-- The well-formed inputs, those whose run ends in `DONE`, are exactly the sequences of encodings (R195). -/
def Obligations.RunEndsDoneExactlyOnEncodings : Prop :=
  ∀ bs : List Byte,
    (∃ (k : Nat) (t : State), runSteps k (State.boot bs) = .next t ∧ t.status = .done) ↔
      ∃ is : List Instr, (∀ i ∈ is, i.wf = true) ∧ bs = is.flatMap encode

/-! ### The buffer -/

/-- The access primitive is bounds-checked (R37): a read that would pass `LEN` fails as a whole, and any other gives the
bytes at the offsets asked for. -/
def Obligations.MemReadIsBoundsChecked : Prop :=
  ∀ (m : Memory) (a n : Nat), m.wf = true →
    (m.size < a + n → memRead m a n = .error .truncatedInstruction) ∧
    (a + n ≤ m.size → ∃ bs : List Byte, memRead m a n = .ok bs ∧ bs.length = n ∧
      ∀ k, k < n → bs[k]? = m.byte? (a + k))

/-- A 16-bit quantity is little-endian (R34); for the direct address this is the spec's decision D11 (log 13). -/
def Obligations.Read16IsLittleEndian : Prop :=
  ∀ (m : Memory) (a : Nat), m.wf = true → a + 2 ≤ m.size →
    ∃ (lo hi : Byte) (v : Word16), m.byte? a = some lo ∧ m.byte? (a + 1) = some hi ∧ read16 m a = .ok v ∧
      v.toNat = 256 * hi.toNat + lo.toNat

/-- The canonical form is canonical: two canonical buffers that read alike at every offset are the same data, and the
offsets that exist are those below `LEN` (R30). -/
def Obligations.CanonicalBuffersThatReadAlikeAreEqual : Prop :=
  ∀ m₁ m₂ : Memory, m₁.wf = true → m₂.wf = true →
    (∀ a, (m₁.byte? a).isSome = true ↔ a < m₁.size) ∧
    ((∀ a, m₁.byte? a = m₂.byte? a) → m₁ = m₂)

/-- Placing a table word that decodes makes the next step run exactly its instruction, in any state; the position and the
records are kept. The placing is the model's own aid (log 4). -/
def Obligations.PlacedTableWordRuns : Prop :=
  ∀ (s : State) (nbits w : Nat) (i : Instr), decodeTableWord nbits w = some i →
    (s.withFetchWord nbits w).pos = s.pos ∧ (s.withFetchWord nbits w).out = s.out ∧
    step (s.withFetchWord nbits w) = exec i (s.withFetchWord nbits w) ∧
    ∃ t : State, step (s.withFetchWord nbits w) = .next t ∧ t.pos = s.pos + i.length ∧ t.status = .running

/-! ### Integer laws, tables, codes and text -/

/-- The integer laws of the sign handling are exact (R9, R117). -/
def Obligations.SignHandlingIsExact : Prop :=
  (∀ v : Word16, signed16 v = v.toInt ∧ -32768 ≤ signed16 v ∧ signed16 v ≤ 32767) ∧
  (∀ v : Byte, (sext16 v).toNat = (if v.toNat < 128 then v.toNat else v.toNat + 0xFF00) ∧
    signed16 (sext16 v) = (if v.toNat < 128 then (v.toNat : Int) else v.toNat - 256) ∧
    (zext16 v).toNat = v.toNat)

/-- The byte-register and word-register tables (R90, R91). -/
def Obligations.RegisterNamingTables : Prop :=
  [0#3, 1#3, 2#3, 3#3, 4#3, 5#3, 6#3, 7#3].map (regName .byte) = ["al", "cl", "dl", "bl", "ah", "ch", "dh", "bh"] ∧
  [0#3, 1#3, 2#3, 3#3, 4#3, 5#3, 6#3, 7#3].map (regName .word) = ["ax", "cx", "dx", "bx", "sp", "bp", "si", "di"]

/-- The sixteen register names are pairwise distinct, and so are the eight base expressions, so that a code and its name are
the same information (R93, R141). -/
def Obligations.NamesAreOneToOne : Prop :=
  (∀ (w w' : Width) (c c' : Code3), regName w c = regName w' c' → w = w' ∧ c = c') ∧
  (∀ c c' : Code3, baseExpr c = baseExpr c' → c = c') ∧
  [0#3, 1#3, 2#3, 3#3, 4#3, 5#3, 6#3, 7#3].map baseExpr =
    ["bx + si", "bx + di", "bp + si", "bp + di", "si", "di", "bp", "bx"]

/-- The text of an indirect-memory operand, by the sign of its displacement (R149); the spaces are the spec's decision D15
(log 16). -/
def Obligations.IndirectOperandText : Prop :=
  ∀ (b : Code3) (d : Word16) (dst : Operand),
    (d.toInt = 0 → opText (.memoryIndirect b d) dst = "[" ++ baseExpr b ++ "]") ∧
    (0 < d.toInt → opText (.memoryIndirect b d) dst = "[" ++ baseExpr b ++ " + " ++ dec d.toInt.natAbs ++ "]") ∧
    (d.toInt < 0 → opText (.memoryIndirect b d) dst = "[" ++ baseExpr b ++ " - " ++ dec d.toInt.natAbs ++ "]")

/-- The text of an immediate: signed decimal, with the size keyword exactly when the destination is a memory operand (R150,
log 16). -/
def Obligations.ImmediateOperandText : Prop :=
  ∀ (v : Word16) (a dsp : Word16) (b c : Code3) (w : Width),
    opText (.immediate v .byte) (.memoryDirect a) = "byte " ++ sdec v.toInt ∧
    opText (.immediate v .word) (.memoryDirect a) = "word " ++ sdec v.toInt ∧
    opText (.immediate v .byte) (.memoryIndirect b dsp) = "byte " ++ sdec v.toInt ∧
    opText (.immediate v .word) (.memoryIndirect b dsp) = "word " ++ sdec v.toInt ∧
    opText (.immediate v .byte) (.register w c) = sdec v.toInt ∧
    opText (.immediate v .word) (.register w c) = sdec v.toInt

/-- Whole lines of text (R146): the spec's three examples and its corner cases (spec/95_test_vectors.md S1, S2, V8). The
decimal numbers and the spacing of `- 32768` and `[0]` are the spec's decisions D14 and D15 (log 16). -/
def Obligations.LinesOfText : Prop :=
  (Record.mk .mov .regMemToFromReg (.register .word 1#3) (.register .word 3#3) 2).text = "mov cx,bx" ∧
  (Record.mk .mov .immediateToReg (.register .byte 1#3) (.immediate 12#16 .byte) 2).text = "mov cl,12" ∧
  (Record.mk .mov .immediateToRegMem (.memoryIndirect 7#3 0#16) (.immediate 7#16 .byte) 3).text = "mov [bx],byte 7" ∧
  (Record.mk .mov .regMemToFromReg (.memoryIndirect 0#3 0x8000#16) (.register .word 0#3) 4).text =
    "mov [bx + si - 32768],ax" ∧
  (Record.mk .mov .immediateToRegMem (.memoryDirect 0#16) (.immediate 0#16 .byte) 5).text = "mov [0],byte 0" ∧
  (Record.mk .mov .immediateToRegMem (.register .byte 4#3) (.immediate 0xFFF4#16 .byte) 3).text = "mov ah,-12"

/-- A numeral is decimal: digits only, at least one, no leading zero but in `0` itself, and its value is the number; a
signed number carries `-` when negative and no `+` (R151). The base is the spec's decision D14 (log 16). -/
def Obligations.DecimalNumerals : Prop :=
  (∀ n : Nat, sdec n = dec n ∧ sdec (-(n + 1 : Int)) = "-" ++ dec (n + 1)) ∧
  ∀ n : Nat, (dec n).toList ≠ [] ∧ (∀ c ∈ (dec n).toList, 48 ≤ c.toNat ∧ c.toNat ≤ 57) ∧
    ((dec n).toList.head? = some '0' → n = 0 ∧ dec n = "0") ∧
    (dec n).toList.foldl (fun v c => 10 * v + (c.toNat - 48)) 0 = n

/-- The suggested wire packing loses nothing (spec/92_eei_decisions.md D9, a suggestion of the spec; log 17). -/
def Obligations.WirePackingLosesNothing : Prop :=
  ∀ o : Operand, o.wire.operand = o

/-- The four statuses have the codes 0 to 3, each of its own, and all but `RUNNING` are terminal (R13, R172, R183). The
codes are the spec's decision D8 (log 25). -/
def Obligations.StatusCodes : Prop :=
  Status.running.code = 0#2 ∧ Status.done.code = 1#2 ∧
  (Failure.status .unknownOpcode).code = 2#2 ∧ (Failure.status .truncatedInstruction).code = 3#2 ∧
  (∀ a b : Status, a.code = b.code → a = b) ∧ ∀ a : Status, a.terminal = true ↔ a ≠ .running

/-! ### The block from outside -/

/-- What reset does not touch, and what the port shows (R191): `rst` keeps the buffer; `rec_valid` is 0 while it is asserted
and while the block stands in the reset state; and a collaborator that supplies another buffer and resets has, from any
state, the start of a run over it. The events are the model's framing (log 28), the reset the spec's decision D4 (log
24). -/
def Obligations.ResetKeepsTheBufferAndPresentsNoRecord : Prop :=
  (∀ s : State, ∃ t : State, s.onEvent .rst = .next t ∧ t.buf = s.buf ∧ s.recValidIn .rst = false ∧
    t.recValidIn .rest = false) ∧
  State.reset.recValidIn .rest = false ∧
  ∀ (s : State) (bs : List Byte), State.onEvent .rst { s with buf := Memory.ofBytes bs } = .next (State.boot bs)

/-- The record port over every event (R22, R14): `rec_valid` is 1 exactly in a step that decodes a record; and `out` is the
history of the port since the last reset: an event appends to it exactly the record presented, and `rst` empties it. The
events are the model's framing (log 28), the port the spec's decision D3. -/
def Obligations.OutIsTheHistoryOfTheRecordPort : Prop :=
  ∀ (e : Event) (s : State), s.buf.wf = true →
    (s.recValidIn e = true ↔ e = .step ∧ s.status = .running ∧ ∃ r : Record, decodeAt s.buf s.pos = .ok r) ∧
    ∀ t : State, s.onEvent e = .next t →
      t.buf = s.buf ∧ t.out = (if e = .rst then [] else s.out) ++ (s.recLinesIn e).toList

/-- The invariant is kept by whatever happens to the block: a reset at any moment (R193), a step held off, a step (R11,
R168). The events are the model's framing (log 28). -/
def Obligations.EveryEventKeepsTheInvariant : Prop :=
  ∀ (e : Event) (s t : State), s.Inv → s.onEvent e = .next t → t.Inv
end

