-- ==== Sys2Proof/Laws/Decode.lean ====
section
/-! SUPPORT. The small lemmas of the bit fields, the byte order, the first bytes and the consumption of bytes. -/

namespace Sys2Proof

/-! ### Fields of encoded bytes -/

@[simp] theorem modField_modrm (mod : BitVec 2) (reg rm : Code3) : modField (modrm mod reg rm) = mod := by
  revert mod reg rm; decide

@[simp] theorem regField_modrm (mod : BitVec 2) (reg rm : Code3) : regField (modrm mod reg rm) = reg := by
  revert mod reg rm; decide

@[simp] theorem rmField_modrm (mod : BitVec 2) (reg rm : Code3) : rmField (modrm mod reg rm) = rm := by
  revert mod reg rm; decide

/-- A ModR/M byte is its three fields. -/
theorem modrm_fields (m : Byte) : modrm (modField m) (regField m) (rmField m) = m := by
  revert m; decide

@[simp] theorem width_ofBit_bit (w : Width) : Width.ofBit w.bit = w := by cases w <;> rfl

@[simp] theorem direction_ofBit_bit (d : Direction) : Direction.ofBit d.bit = d := by cases d <;> rfl

/-- The value of a little-endian pair (R34). -/
theorem word16_toNat (lo hi : Byte) : (word16 lo hi).toNat = lo.toNat + 256 * hi.toNat := by
  have := lo.isLt
  rw [word16, BitVec.toNat_append, Nat.shiftLeft_eq, Nat.mul_comm, ← Nat.two_pow_add_eq_or_of_lt this]
  omega

theorem loByte_toNat (v : Word16) : (loByte v).toNat = v.toNat % 256 := by
  simp [loByte]

theorem hiByte_toNat (v : Word16) : (hiByte v).toNat = v.toNat / 256 := by
  have := v.isLt
  simp [hiByte, Nat.shiftRight_eq_div_pow]; omega

@[simp] theorem loByte_word16 (lo hi : Byte) : loByte (word16 lo hi) = lo := by
  apply BitVec.eq_of_toNat_eq
  rw [loByte_toNat, word16_toNat]
  have := lo.isLt; omega

@[simp] theorem hiByte_word16 (lo hi : Byte) : hiByte (word16 lo hi) = hi := by
  apply BitVec.eq_of_toNat_eq
  rw [hiByte_toNat, word16_toNat]
  have := lo.isLt; omega

@[simp] theorem word16_lo_hi (v : Word16) : word16 (loByte v) (hiByte v) = v := by
  apply BitVec.eq_of_toNat_eq
  rw [word16_toNat, loByte_toNat, hiByte_toNat]
  omega

/-! ### Classifying encoded first bytes -/

@[simp] theorem classify_opRegMem (d : Direction) (w : Width) : classify (opRegMem d w) = .ok .regMemToFromReg := by
  cases d <;> cases w <;> decide

@[simp] theorem classify_opImmReg (w : Width) (reg : Code3) : classify (opImmReg w reg) = .ok .immediateToReg := by
  cases w <;> revert reg <;> decide

@[simp] theorem classify_opImmRm (w : Width) : classify (opImmRm w) = .ok .immediateToRegMem := by
  cases w <;> decide

@[simp] theorem classify_opMemToAcc (w : Width) : classify (opMemToAcc w) = .ok .memToAcc := by
  cases w <;> decide

@[simp] theorem classify_opAccToMem (w : Width) : classify (opAccToMem w) = .ok .accToMem := by
  cases w <;> decide

@[simp] theorem direction_opRegMem (d : Direction) (w : Width) : Direction.ofBit (bitField (opRegMem d w) 1) = d := by
  cases d <;> cases w <;> decide

@[simp] theorem width_opRegMem (d : Direction) (w : Width) : Width.ofBit (bitField (opRegMem d w) 0) = w := by
  cases d <;> cases w <;> decide

@[simp] theorem width_opImmReg (w : Width) (reg : Code3) : Width.ofBit (bitField (opImmReg w reg) 3) = w := by
  cases w <;> revert reg <;> decide

@[simp] theorem rmField_opImmReg (w : Width) (reg : Code3) : rmField (opImmReg w reg) = reg := by
  cases w <;> revert reg <;> decide

@[simp] theorem width_opImmRm (w : Width) : Width.ofBit (bitField (opImmRm w) 0) = w := by
  cases w <;> decide

@[simp] theorem width_opMemToAcc (w : Width) : Width.ofBit (bitField (opMemToAcc w) 0) = w := by
  cases w <;> decide

@[simp] theorem width_opAccToMem (w : Width) : Width.ofBit (bitField (opAccToMem w) 0) = w := by
  cases w <;> decide

/-- A byte of form `RegMemToFromReg` is rebuilt from its two bits. -/
theorem opRegMem_of_classify {b : Byte} (h : classify b = .ok .regMemToFromReg) :
    opRegMem (.ofBit (bitField b 1)) (.ofBit (bitField b 0)) = b := by
  revert h b; decide

theorem opImmReg_of_classify {b : Byte} (h : classify b = .ok .immediateToReg) :
    opImmReg (.ofBit (bitField b 3)) (rmField b) = b := by
  revert h b; decide

theorem opImmRm_of_classify {b : Byte} (h : classify b = .ok .immediateToRegMem) :
    opImmRm (.ofBit (bitField b 0)) = b := by
  revert h b; decide

theorem opMemToAcc_of_classify {b : Byte} (h : classify b = .ok .memToAcc) :
    opMemToAcc (.ofBit (bitField b 0)) = b := by
  revert h b; decide

theorem opAccToMem_of_classify {b : Byte} (h : classify b = .ok .accToMem) :
    opAccToMem (.ofBit (bitField b 0)) = b := by
  revert h b; decide

/-! ### Consuming bytes -/

@[simp] theorem takeByte_cons (b : Byte) (bs : List Byte) : takeByte (b :: bs) = .ok (b, bs) := rfl

@[simp] theorem takeWord_bytes (v : Word16) (bs : List Byte) :
    takeWord (loByte v :: hiByte v :: bs) = .ok (v, bs) := by
  simp [takeWord]

/-- Where a byte is taken, it was the first. -/
theorem takeByte_ok {bs : List Byte} {b : Byte} {rest : List Byte} (h : takeByte bs = .ok (b, rest)) : bs = b :: rest := by
  cases bs with
  | nil => simp [takeByte] at h
  | cons c cs => simp [takeByte] at h; simp [h]

/-- Where a word is taken, its bytes were the first two. -/
theorem takeWord_ok {bs : List Byte} {v : Word16} {rest : List Byte} (h : takeWord bs = .ok (v, rest)) :
    bs = loByte v :: hiByte v :: rest := by
  match bs with
  | [] => simp [takeWord] at h
  | [_] => simp [takeWord] at h
  | lo :: hi :: cs => simp [takeWord] at h; obtain ⟨rfl, rfl⟩ := h; simp

end Sys2Proof
end

