-- ==== Sys2Proof/Laws/Memory.lean ====
section
/-! SUPPORT. The buffer: a canonical buffer is the buffer of its bytes, reads are list lookups, every operation gives a
canonical buffer, and the window is the next six bytes. -/

namespace Sys2Proof.Machine

theorem Memory.cellsFrom_fst (bs : List Byte) (k : Nat) :
    (Memory.cellsFrom k bs).map Prod.fst = List.range' k bs.length := by
  induction bs generalizing k with
  | nil => rfl
  | cons b bs ih => simp [cellsFrom, ih, List.range'_succ]

theorem Memory.cellsFrom_snd (bs : List Byte) (k : Nat) : (Memory.cellsFrom k bs).map Prod.snd = bs := by
  induction bs generalizing k with
  | nil => rfl
  | cons b bs ih => simp [cellsFrom, ih]

theorem Memory.cellsFrom_length (bs : List Byte) (k : Nat) : (Memory.cellsFrom k bs).length = bs.length := by
  simpa using congrArg List.length (Memory.cellsFrom_snd bs k)

@[simp] theorem Memory.bytes_ofBytes (bs : List Byte) : (Memory.ofBytes bs).bytes = bs :=
  Memory.cellsFrom_snd bs 0

@[simp] theorem Memory.size_ofBytes (bs : List Byte) : (Memory.ofBytes bs).size = bs.length :=
  Memory.cellsFrom_length bs 0

@[simp] theorem Memory.length_bytes (m : Memory) : m.bytes.length = m.size := by
  simp [Memory.bytes, Memory.size]

@[simp] theorem Memory.wf_ofBytes (bs : List Byte) : (Memory.ofBytes bs).wf = true := by
  simp [Memory.wf, Memory.ofBytes, Memory.cellsFrom_fst, Memory.cellsFrom_length, List.range_eq_range']

/-- Placing bytes keeps the canonical form. -/
@[simp] theorem Memory.wf_place (m : Memory) (a : Nat) (bs : List Byte) : (m.place a bs).wf = true :=
  Memory.wf_ofBytes _

theorem Memory.wf_reset : State.reset.buf.wf = true := by decide

theorem Memory.eq_cellsFrom (m : Memory) (k : Nat) (h : m.map Prod.fst = List.range' k m.length) :
    m = Memory.cellsFrom k m.bytes := by
  induction m generalizing k with
  | nil => rfl
  | cons c m ih =>
    obtain ⟨a, b⟩ := c
    simp only [List.map_cons, List.length_cons, List.range'_succ, List.cons.injEq] at h
    obtain ⟨rfl, h⟩ := h
    simpa [Memory.bytes, Memory.cellsFrom] using ih _ h

/-- A canonical buffer is the buffer of its bytes. -/
theorem Memory.eq_ofBytes {m : Memory} (h : m.wf = true) : m = Memory.ofBytes m.bytes :=
  Memory.eq_cellsFrom m 0 (by simpa [Memory.wf, List.range_eq_range'] using h)

/-- The offsets of a canonical buffer are strictly rising. -/
theorem Memory.rising_of_wf {m : Memory} (h : m.wf = true) : (m.map Prod.fst).Pairwise (· < ·) := by
  rw [show m.map Prod.fst = List.range m.length by simpa [Memory.wf] using h]
  exact List.pairwise_lt_range

theorem Memory.byte?_cellsFrom (bs : List Byte) (k a : Nat) :
    Memory.byte? (Memory.cellsFrom k bs) (k + a) = bs[a]? := by
  induction bs generalizing k a with
  | nil => rfl
  | cons b bs ih =>
    cases a with
    | zero => simp [cellsFrom, byte?]
    | succ a =>
      have := ih (k + 1) a
      simpa [cellsFrom, byte?, Nat.add_assoc, Nat.add_comm 1 a] using this

@[simp] theorem Memory.byte?_ofBytes (bs : List Byte) (a : Nat) : (Memory.ofBytes bs).byte? a = bs[a]? := by
  simpa [Memory.ofBytes] using Memory.byte?_cellsFrom bs 0 a

/-- Reading a canonical buffer is looking its bytes up. -/
theorem Memory.byte?_of_wf {m : Memory} (h : m.wf = true) (a : Nat) : m.byte? a = m.bytes[a]? := by
  conv => lhs; rw [Memory.eq_ofBytes h]
  simp

theorem filterMap_range_getElem? {α : Type} (l : List α) (p n : Nat) (h : p + n ≤ l.length) :
    (List.range n).filterMap (fun k => l[p + k]?) = (l.drop p).take n := by
  induction n generalizing p with
  | zero => simp
  | succ n ih =>
    rw [List.range_succ, List.filterMap_append, ih p (by omega), List.take_add_one]
    cases h : l[p + n]? <;> simp [h]

/-- The window of a canonical buffer is the next six bytes (R21). -/
theorem State.window_eq (s : State) (h : s.buf.wf = true) :
    s.window = (s.buf.bytes.drop s.pos).take Config.maxInstrLen := by
  have hb : (fun k => s.buf.byte? (s.pos + k)) = fun k => s.buf.bytes[s.pos + k]? :=
    funext fun k => Memory.byte?_of_wf h _
  have hl := Memory.length_bytes s.buf
  rw [State.window, hb, State.avail]
  by_cases hp : s.pos ≤ s.buf.size
  · rw [filterMap_range_getElem? _ _ _ (by omega), ← List.take_take,
      List.take_of_length_le (i := s.buf.size - s.pos) (by simp [hl])]
  · simp [Nat.sub_eq_zero_of_le (Nat.le_of_not_le hp), List.drop_eq_nil_of_le, hl, Nat.le_of_not_le hp]

end Sys2Proof.Machine
end

