-- ==== Sys2Proof/Laws/State.lean ====
section
/-! SUPPORT. One lemma per field per update of State. -/

namespace Sys2Proof.Machine

@[simp] theorem State.emit_pos (r : Record) (s : State) : (s.emit r).pos = s.pos := rfl
@[simp] theorem State.emit_status (r : Record) (s : State) : (s.emit r).status = s.status := rfl
@[simp] theorem State.emit_out (r : Record) (s : State) : (s.emit r).out = s.out ++ [r] := rfl
@[simp] theorem State.emit_buf (r : Record) (s : State) : (s.emit r).buf = s.buf := rfl

@[simp] theorem State.advance_pos (n : Nat) (s : State) : (s.advance n).pos = s.pos + n := rfl
@[simp] theorem State.advance_status (n : Nat) (s : State) : (s.advance n).status = s.status := rfl
@[simp] theorem State.advance_out (n : Nat) (s : State) : (s.advance n).out = s.out := rfl
@[simp] theorem State.advance_buf (n : Nat) (s : State) : (s.advance n).buf = s.buf := rfl

@[simp] theorem State.takeFailure_pos (f : Failure) (s : State) : (s.takeFailure f).pos = s.pos := rfl
@[simp] theorem State.takeFailure_status (f : Failure) (s : State) : (s.takeFailure f).status = Failure.status f := rfl
@[simp] theorem State.takeFailure_out (f : Failure) (s : State) : (s.takeFailure f).out = s.out := rfl
@[simp] theorem State.takeFailure_buf (f : Failure) (s : State) : (s.takeFailure f).buf = s.buf := rfl

@[simp] theorem State.complete_pos (s : State) : s.complete.pos = s.pos := rfl
@[simp] theorem State.complete_status (s : State) : s.complete.status = .done := rfl
@[simp] theorem State.complete_out (s : State) : s.complete.out = s.out := rfl
@[simp] theorem State.complete_buf (s : State) : s.complete.buf = s.buf := rfl

@[simp] theorem State.assertRst_pos (s : State) : s.assertRst.pos = 0 := rfl
@[simp] theorem State.assertRst_status (s : State) : s.assertRst.status = .running := rfl
@[simp] theorem State.assertRst_out (s : State) : s.assertRst.out = [] := rfl
@[simp] theorem State.assertRst_buf (s : State) : s.assertRst.buf = s.buf := rfl

@[simp] theorem State.boot_pos (bs : List Byte) : (State.boot bs).pos = 0 := rfl
@[simp] theorem State.boot_status (bs : List Byte) : (State.boot bs).status = .running := rfl
@[simp] theorem State.boot_out (bs : List Byte) : (State.boot bs).out = [] := rfl
@[simp] theorem State.boot_buf (bs : List Byte) : (State.boot bs).buf = Memory.ofBytes bs := rfl

@[simp] theorem State.withFetchWord_pos (s : State) (n w : Nat) : (s.withFetchWord n w).pos = s.pos := rfl
@[simp] theorem State.withFetchWord_status (s : State) (n w : Nat) : (s.withFetchWord n w).status = .running := rfl
@[simp] theorem State.withFetchWord_out (s : State) (n w : Nat) : (s.withFetchWord n w).out = s.out := rfl
@[simp] theorem State.withFetchWord_buf (s : State) (n w : Nat) :
    (s.withFetchWord n w).buf = s.buf.place s.pos (tableBytes n w) := rfl

@[simp] theorem State.onEvent_rst (s : State) : s.onEvent .rst = .next s.assertRst := rfl
@[simp] theorem State.onEvent_rest (s : State) : s.onEvent .rest = .next s := rfl
@[simp] theorem State.onEvent_step (s : State) : s.onEvent .step = step s := rfl
@[simp] theorem State.recLinesIn_rst (s : State) : s.recLinesIn .rst = none := rfl
@[simp] theorem State.recLinesIn_rest (s : State) : s.recLinesIn .rest = none := rfl
@[simp] theorem State.recLinesIn_step (s : State) : s.recLinesIn .step = s.recLines := rfl
@[simp] theorem State.recValidIn_rst (s : State) : s.recValidIn .rst = false := rfl
@[simp] theorem State.recValidIn_rest (s : State) : s.recValidIn .rest = false := rfl
@[simp] theorem State.recValidIn_step (s : State) : s.recValidIn .step = s.recValid := rfl

/-- A failure's status is terminal (R166). -/
@[simp] theorem failure_status_ne_running (f : Failure) : Failure.status f ≠ .running := by
  cases f <;> simp [Failure.status]

end Sys2Proof.Machine
end

