-- ==== Sys2Proof/Laws/Ops.lean ====
section
/-! SUPPORT. What the shared operations and one step can do, said once. -/

namespace Sys2Proof.Machine

theorem present_fits {r : Record} {s : State} (h : s.pos + r.bytesConsumed ≤ s.buf.size) :
    present r s = .next ((s.emit r).advance r.bytesConsumed) := if_pos h

theorem present_truncated {r : Record} {s : State} (h : ¬ s.pos + r.bytesConsumed ≤ s.buf.size) :
    present r s = .next (s.takeFailure .truncatedInstruction) := if_neg h

/-- `present` emits and advances, or takes the failure. -/
theorem present_cases (r : Record) (s : State) :
    (s.pos + r.bytesConsumed ≤ s.buf.size ∧ present r s = .next ((s.emit r).advance r.bytesConsumed)) ∨
    (s.buf.size < s.pos + r.bytesConsumed ∧ present r s = .next (s.takeFailure .truncatedInstruction)) := by
  by_cases h : s.pos + r.bytesConsumed ≤ s.buf.size
  · exact .inl ⟨h, present_fits h⟩
  · exact .inr ⟨Nat.lt_of_not_le h, present_truncated h⟩

/-- Every meaning presents one record, the same in every state, of the instruction's length and form and of a shape of R143. -/
theorem exec_presents (i : Instr) : ∃ r : Record, (∀ s, exec i s = present r s) ∧
    r.bytesConsumed = i.length ∧ r.variant = i.variant ∧ r.wellShaped = true := by
  cases i <;> refine ⟨_, fun _ => rfl, ?_⟩ <;> (try cases ‹Direction›) <;> (try cases ‹Width›) <;>
    refine ⟨rfl, rfl, rfl⟩

/-- No step at all. -/
theorem runSteps_zero (s : State) : runSteps 0 s = .next s := rfl

/-- A run of one step more is a step and then the run, with no unfolding of the host's `run`. -/
theorem runSteps_succ (k : Nat) (s : State) : runSteps (k + 1) s = match step s with
    | .next t => runSteps k t
    | .fault r => .fault r
    | .refused r => .refused r := by
  have host (M : Host.Core) (x : M.State) : M.run (k + 1) x = match M.step x with
      | .next t => M.run k t
      | .fault r => .fault r
      | .refused r => .refused r := by
    cases h : M.step x <;> simp [Host.Core.run, h]
  refine (host Sys2Proof.core s).trans ?_
  rw [show Sys2Proof.core.step s = step s from rfl]
  cases step s <;> rfl

/-- A run that answers a state has taken its first step. -/
theorem runSteps_succ_next {k : Nat} {s t : State} (h : runSteps (k + 1) s = .next t) :
    ∃ u, step s = .next u ∧ runSteps k u = .next t := by
  rw [runSteps_succ] at h
  cases hs : step s with
  | next u => exact ⟨u, rfl, by rwa [hs] at h⟩
  | fault r => rw [hs] at h; cases h
  | refused r => rw [hs] at h; cases h

end Sys2Proof.Machine
end

