-- ==== Sys2Proof/Laws/PerInstr.lean ====
section
/-! SUPPORT. Statements about every instruction as syntax, one lemma per constructor. -/

/-- An instruction's bytes are as many as the `length` column says (R64), and between 2 and 6 (R6). -/
def Sys2Proof.Laws.EncodeLength.Statement (i : Sys2Proof.Instr) : Prop :=
  (Sys2Proof.encode i).length = i.length ∧
    Sys2Proof.Config.minInstrLen ≤ i.length ∧ i.length ≤ Sys2Proof.Config.maxInstrLen

namespace Sys2Proof.Laws.EncodeLength

theorem rmReg (d : Direction) (w : Width) (reg rm : Code3) : Statement (.rmReg d w reg rm) := ⟨rfl, Nat.le_of_ble_eq_true rfl, Nat.le_of_ble_eq_true rfl⟩

theorem rmDirect (d : Direction) (w : Width) (reg : Code3) (addr : Word16) : Statement (.rmDirect d w reg addr) := ⟨rfl, Nat.le_of_ble_eq_true rfl, Nat.le_of_ble_eq_true rfl⟩

theorem rmMem (d : Direction) (w : Width) (reg rm : Code3) : Statement (.rmMem d w reg rm) := ⟨rfl, Nat.le_of_ble_eq_true rfl, Nat.le_of_ble_eq_true rfl⟩

theorem rmDisp8 (d : Direction) (w : Width) (reg rm : Code3) (disp : Byte) : Statement (.rmDisp8 d w reg rm disp) := ⟨rfl, Nat.le_of_ble_eq_true rfl, Nat.le_of_ble_eq_true rfl⟩

theorem rmDisp16 (d : Direction) (w : Width) (reg rm : Code3) (disp : Word16) : Statement (.rmDisp16 d w reg rm disp) := ⟨rfl, Nat.le_of_ble_eq_true rfl, Nat.le_of_ble_eq_true rfl⟩

theorem immRegByte (reg : Code3) (imm : Byte) : Statement (.immRegByte reg imm) := ⟨rfl, Nat.le_of_ble_eq_true rfl, Nat.le_of_ble_eq_true rfl⟩

theorem immRegWord (reg : Code3) (imm : Word16) : Statement (.immRegWord reg imm) := ⟨rfl, Nat.le_of_ble_eq_true rfl, Nat.le_of_ble_eq_true rfl⟩

theorem immRmRegByte (x rm : Code3) (imm : Byte) : Statement (.immRmRegByte x rm imm) := ⟨rfl, Nat.le_of_ble_eq_true rfl, Nat.le_of_ble_eq_true rfl⟩

theorem immRmDirectByte (x : Code3) (addr : Word16) (imm : Byte) : Statement (.immRmDirectByte x addr imm) := ⟨rfl, Nat.le_of_ble_eq_true rfl, Nat.le_of_ble_eq_true rfl⟩

theorem immRmMemByte (x rm : Code3) (imm : Byte) : Statement (.immRmMemByte x rm imm) := ⟨rfl, Nat.le_of_ble_eq_true rfl, Nat.le_of_ble_eq_true rfl⟩

theorem immRmDisp8Byte (x rm : Code3) (disp : Byte) (imm : Byte) : Statement (.immRmDisp8Byte x rm disp imm) := ⟨rfl, Nat.le_of_ble_eq_true rfl, Nat.le_of_ble_eq_true rfl⟩

theorem immRmDisp16Byte (x rm : Code3) (disp : Word16) (imm : Byte) : Statement (.immRmDisp16Byte x rm disp imm) := ⟨rfl, Nat.le_of_ble_eq_true rfl, Nat.le_of_ble_eq_true rfl⟩

theorem immRmRegWord (x rm : Code3) (imm : Word16) : Statement (.immRmRegWord x rm imm) := ⟨rfl, Nat.le_of_ble_eq_true rfl, Nat.le_of_ble_eq_true rfl⟩

theorem immRmDirectWord (x : Code3) (addr : Word16) (imm : Word16) : Statement (.immRmDirectWord x addr imm) := ⟨rfl, Nat.le_of_ble_eq_true rfl, Nat.le_of_ble_eq_true rfl⟩

theorem immRmMemWord (x rm : Code3) (imm : Word16) : Statement (.immRmMemWord x rm imm) := ⟨rfl, Nat.le_of_ble_eq_true rfl, Nat.le_of_ble_eq_true rfl⟩

theorem immRmDisp8Word (x rm : Code3) (disp : Byte) (imm : Word16) : Statement (.immRmDisp8Word x rm disp imm) := ⟨rfl, Nat.le_of_ble_eq_true rfl, Nat.le_of_ble_eq_true rfl⟩

theorem immRmDisp16Word (x rm : Code3) (disp : Word16) (imm : Word16) : Statement (.immRmDisp16Word x rm disp imm) := ⟨rfl, Nat.le_of_ble_eq_true rfl, Nat.le_of_ble_eq_true rfl⟩

theorem memToAccByte (addr : Byte) : Statement (.memToAccByte addr) := ⟨rfl, Nat.le_of_ble_eq_true rfl, Nat.le_of_ble_eq_true rfl⟩

theorem memToAccWord (addr : Word16) : Statement (.memToAccWord addr) := ⟨rfl, Nat.le_of_ble_eq_true rfl, Nat.le_of_ble_eq_true rfl⟩

theorem accToMemByte (addr : Byte) : Statement (.accToMemByte addr) := ⟨rfl, Nat.le_of_ble_eq_true rfl, Nat.le_of_ble_eq_true rfl⟩

theorem accToMemWord (addr : Word16) : Statement (.accToMemWord addr) := ⟨rfl, Nat.le_of_ble_eq_true rfl, Nat.le_of_ble_eq_true rfl⟩

/-- The statement for every instruction. -/
theorem all (i : Instr) : Statement i := by
  cases i <;> exact ⟨rfl, Nat.le_of_ble_eq_true rfl, Nat.le_of_ble_eq_true rfl⟩

end Sys2Proof.Laws.EncodeLength
end

