-- ==== Sys2Proof/Tests/Slice0.lean ====
section
/-! SUPPORT. The model's own tests: expected results come from spec/95_test_vectors.md (section and row named) or by hand from
the rule named; then a witness of the hypotheses of every statement that has some. -/

namespace Sys2Proof.Tests

open Sys2Proof.Machine

def after : Result → Option State
  | .next t => some t
  | .fault _ => none
  | .refused _ => none

def stepOn (bs : List Byte) : Option (Nat × Status × List Record) :=
  (after (step (State.boot bs))).map fun t => (t.pos, t.status, t.out)

def at_ (p : Nat) (bs : List Byte) : State := { State.boot bs with pos := p }

def rec1 (v : Variant) (first second : Operand) (n : Nat) : Record := ⟨.mov, v, first, second, n⟩

/-! ### Ill-formed terms are refused -/

theorem test_wf_rmMem_direct_refused : (Instr.rmMem .regIsDest .word 3#3 6#3).wf = false := by decide
theorem test_wf_immRmMemByte_direct_refused : (Instr.immRmMemByte 0#3 6#3 1#8).wf = false := by decide
theorem test_wf_immRmMemWord_direct_refused : (Instr.immRmMemWord 0#3 6#3 1#16).wf = false := by decide
theorem test_memory_wf_refuses_gap : Memory.wf [(0, 1#8), (2, 1#8)] = false := by decide
theorem test_memory_wf_refuses_disorder : Memory.wf [(1, 1#8), (0, 1#8)] = false := by decide

/-! ### Decoding: words written out from the encodings R51 to R54 -/

/-- S1. -/
theorem test_decode_rmReg : decode [0b10001001#8, 0b11011001#8] =
    .ok (.rmReg .regIsSource .word 3#3 1#3, []) := by decide
/-- V1 row 22. -/
theorem test_decode_rmDirect : decode [0b10001001#8, 0b00011110#8, 0b00001010#8, 0b00001101#8] =
    .ok (.rmDirect .regIsSource .word 3#3 0x0D0A#16, []) := by decide
/-- V1 row 8. -/
theorem test_decode_rmMem : decode [0b10001011#8, 0b00011011#8] =
    .ok (.rmMem .regIsDest .word 3#3 3#3, []) := by decide
/-- V1 row 13. -/
theorem test_decode_rmDisp8 : decode [0b10001010#8, 0b01000000#8, 0b10000000#8] =
    .ok (.rmDisp8 .regIsDest .byte 0#3 0#3 0x80#8, []) := by decide
/-- V1 row 21. -/
theorem test_decode_rmDisp16 : decode [0b10001000#8, 0b10101100#8, 0b11010100#8, 0b11111110#8] =
    .ok (.rmDisp16 .regIsSource .byte 5#3 4#3 0xFED4#16, []) := by decide
/-- S2. -/
theorem test_decode_immRegByte : decode [0b10110001#8, 0b00001100#8] =
    .ok (.immRegByte 1#3 12#8, []) := by decide
/-- V2 row 7. -/
theorem test_decode_immRegWord : decode [0b10111111#8, 0b00111001#8, 0b00110000#8] =
    .ok (.immRegWord 7#3 12345#16, []) := by decide
/-- V3 row 5. -/
theorem test_decode_immRmRegByte : decode [0b11000110#8, 0b11111011#8, 0b00000111#8] =
    .ok (.immRmRegByte 7#3 3#3 7#8, []) := by decide
/-- V3 row 14. -/
theorem test_decode_immRmDirectByte : decode [0b11000110#8, 0b00000110#8, 0b00001010#8, 0b00000000#8, 0b11111111#8] =
    .ok (.immRmDirectByte 0#3 10#16 0xFF#8, []) := by decide
/-- V3 row 7. -/
theorem test_decode_immRmMemByte : decode [0b11000110#8, 0b00000011#8, 0b00000111#8] =
    .ok (.immRmMemByte 0#3 3#3 7#8, []) := by decide
/-- V3 row 10. -/
theorem test_decode_immRmDisp8Byte : decode [0b11000110#8, 0b01000011#8, 0b11111110#8, 0b10000000#8] =
    .ok (.immRmDisp8Byte 0#3 3#3 0xFE#8 0x80#8, []) := by decide
/-- by hand from R112, the displacement of V3 row 12. -/
theorem test_decode_immRmDisp16Byte : decode [0b11000110#8, 0b10000101#8, 0b00101000#8, 0b11111100#8, 0b00000111#8] =
    .ok (.immRmDisp16Byte 0#3 5#3 0xFC28#16 7#8, []) := by decide
/-- V3 row 3. -/
theorem test_decode_immRmRegWord : decode [0b11000111#8, 0b11000110#8, 0b11111111#8, 0b11111111#8] =
    .ok (.immRmRegWord 0#3 6#3 0xFFFF#16, []) := by decide
/-- V3 row 15. -/
theorem test_decode_immRmDirectWord : decode [0b11000111#8, 0b00000110#8, 0b00001010#8, 0b00000000#8, 0b11111111#8, 0b00000000#8] =
    .ok (.immRmDirectWord 0#3 10#16 255#16, []) := by decide
/-- V3 row 9. -/
theorem test_decode_immRmMemWord : decode [0b11000111#8, 0b00111000#8, 0b00000001#8, 0b00000000#8] =
    .ok (.immRmMemWord 7#3 0#3 1#16, []) := by decide
/-- by hand from R112, the displacement of V3 row 11. -/
theorem test_decode_immRmDisp8Word : decode [0b11000111#8, 0b01000110#8, 0b00000000#8, 0b00000000#8, 0b10000000#8] =
    .ok (.immRmDisp8Word 0#3 6#3 0#8 0x8000#16, []) := by decide
/-- V3 row 12. -/
theorem test_decode_immRmDisp16Word : decode [0b11000111#8, 0b10000101#8, 0b00101000#8, 0b11111100#8, 0b01011011#8, 0b00000001#8] =
    .ok (.immRmDisp16Word 0#3 5#3 0xFC28#16 0x015B#16, []) := by decide
/-- V5 row 4. -/
theorem test_decode_memToAccByte : decode [0b10100000#8, 0b11111111#8] =
    .ok (.memToAccByte 0xFF#8, []) := by decide
/-- V5 row 1. -/
theorem test_decode_memToAccWord : decode [0b10100001#8, 0b11111011#8, 0b00001001#8] =
    .ok (.memToAccWord 0x09FB#16, []) := by decide
/-- V5 row 7. -/
theorem test_decode_accToMemByte : decode [0b10100010#8, 0b00001111#8] =
    .ok (.accToMemByte 0x0F#8, []) := by decide
/-- V5 row 6. -/
theorem test_decode_accToMemWord : decode [0b10100011#8, 0b11101000#8, 0b00000011#8] =
    .ok (.accToMemWord 1000#16, []) := by decide

/-! ### One step per row: the record, the position and the text -/

/-- V1 row 2. -/
theorem test_step_rmReg_dest : stepOn [0x8A#8, 0xC1#8] =
    some (2, .running, [rec1 .regMemToFromReg (.register .byte 0#3) (.register .byte 1#3) 2]) ∧
    (rec1 .regMemToFromReg (.register .byte 0#3) (.register .byte 1#3) 2).text = "mov al,cl" := by decide
/-- V1 row 22. -/
theorem test_step_rmDirect : stepOn [0x89#8, 0x1E#8, 0x0A#8, 0x0D#8] =
    some (4, .running, [rec1 .regMemToFromReg (.memoryDirect 3338#16) (.register .word 3#3) 4]) ∧
    (rec1 .regMemToFromReg (.memoryDirect 3338#16) (.register .word 3#3) 4).text = "mov [3338],bx" := by decide
/-- V1 row 8. -/
theorem test_step_rmMem : stepOn [0x8B#8, 0x1B#8] =
    some (2, .running, [rec1 .regMemToFromReg (.register .word 3#3) (.memoryIndirect 3#3 0#16) 2]) ∧
    (rec1 .regMemToFromReg (.register .word 3#3) (.memoryIndirect 3#3 0#16) 2).text = "mov bx,[bp + di]" := by decide
/-- V1 row 13. -/
theorem test_step_rmDisp8 : stepOn [0x8A#8, 0x40#8, 0x80#8] =
    some (3, .running, [rec1 .regMemToFromReg (.register .byte 0#3) (.memoryIndirect 0#3 (-128)) 3]) ∧
    (rec1 .regMemToFromReg (.register .byte 0#3) (.memoryIndirect 0#3 (-128)) 3).text = "mov al,[bx + si - 128]" := by decide
/-- V1 row 21. -/
theorem test_step_rmDisp16 : stepOn [0x88#8, 0xAC#8, 0xD4#8, 0xFE#8] =
    some (4, .running, [rec1 .regMemToFromReg (.memoryIndirect 4#3 (-300)) (.register .byte 5#3) 4]) ∧
    (rec1 .regMemToFromReg (.memoryIndirect 4#3 (-300)) (.register .byte 5#3) 4).text = "mov [si - 300],ch" := by decide
/-- S2. -/
theorem test_step_immRegByte : stepOn [0xB1#8, 0x0C#8] =
    some (2, .running, [rec1 .immediateToReg (.register .byte 1#3) (.immediate 12#16 .byte) 2]) ∧
    (rec1 .immediateToReg (.register .byte 1#3) (.immediate 12#16 .byte) 2).text = "mov cl,12" := by decide
/-- V2 row 7. -/
theorem test_step_immRegWord : stepOn [0xBF#8, 0x39#8, 0x30#8] =
    some (3, .running, [rec1 .immediateToReg (.register .word 7#3) (.immediate 12345#16 .word) 3]) ∧
    (rec1 .immediateToReg (.register .word 7#3) (.immediate 12345#16 .word) 3).text = "mov di,12345" := by decide
/-- V3 row 5. -/
theorem test_step_immRmRegByte : stepOn [0xC6#8, 0xFB#8, 0x07#8] =
    some (3, .running, [rec1 .immediateToRegMem (.register .byte 3#3) (.immediate 7#16 .byte) 3]) ∧
    (rec1 .immediateToRegMem (.register .byte 3#3) (.immediate 7#16 .byte) 3).text = "mov bl,7" := by decide
/-- V3 row 14. -/
theorem test_step_immRmDirectByte : stepOn [0xC6#8, 0x06#8, 0x0A#8, 0x00#8, 0xFF#8] =
    some (5, .running, [rec1 .immediateToRegMem (.memoryDirect 10#16) (.immediate (-1) .byte) 5]) ∧
    (rec1 .immediateToRegMem (.memoryDirect 10#16) (.immediate (-1) .byte) 5).text = "mov [10],byte -1" := by decide
/-- V3 row 7. -/
theorem test_step_immRmMemByte : stepOn [0xC6#8, 0x03#8, 0x07#8] =
    some (3, .running, [rec1 .immediateToRegMem (.memoryIndirect 3#3 0#16) (.immediate 7#16 .byte) 3]) ∧
    (rec1 .immediateToRegMem (.memoryIndirect 3#3 0#16) (.immediate 7#16 .byte) 3).text = "mov [bp + di],byte 7" := by decide
/-- V3 row 10. -/
theorem test_step_immRmDisp8Byte : stepOn [0xC6#8, 0x43#8, 0xFE#8, 0x80#8] =
    some (4, .running, [rec1 .immediateToRegMem (.memoryIndirect 3#3 (-2)) (.immediate (-128) .byte) 4]) ∧
    (rec1 .immediateToRegMem (.memoryIndirect 3#3 (-2)) (.immediate (-128) .byte) 4).text = "mov [bp + di - 2],byte -128" := by decide
/-- by hand from R112, the displacement of V3 row 12. -/
theorem test_step_immRmDisp16Byte : stepOn [0xC6#8, 0x85#8, 0x28#8, 0xFC#8, 0x07#8] =
    some (5, .running, [rec1 .immediateToRegMem (.memoryIndirect 5#3 (-984)) (.immediate 7#16 .byte) 5]) ∧
    (rec1 .immediateToRegMem (.memoryIndirect 5#3 (-984)) (.immediate 7#16 .byte) 5).text = "mov [di - 984],byte 7" := by decide
/-- V3 row 3. -/
theorem test_step_immRmRegWord : stepOn [0xC7#8, 0xC6#8, 0xFF#8, 0xFF#8] =
    some (4, .running, [rec1 .immediateToRegMem (.register .word 6#3) (.immediate (-1) .word) 4]) ∧
    (rec1 .immediateToRegMem (.register .word 6#3) (.immediate (-1) .word) 4).text = "mov si,-1" := by decide
/-- V3 row 15. -/
theorem test_step_immRmDirectWord : stepOn [0xC7#8, 0x06#8, 0x0A#8, 0x00#8, 0xFF#8, 0x00#8] =
    some (6, .running, [rec1 .immediateToRegMem (.memoryDirect 10#16) (.immediate 255#16 .word) 6]) ∧
    (rec1 .immediateToRegMem (.memoryDirect 10#16) (.immediate 255#16 .word) 6).text = "mov [10],word 255" := by decide
/-- V3 row 9. -/
theorem test_step_immRmMemWord : stepOn [0xC7#8, 0x38#8, 0x01#8, 0x00#8] =
    some (4, .running, [rec1 .immediateToRegMem (.memoryIndirect 0#3 0#16) (.immediate 1#16 .word) 4]) ∧
    (rec1 .immediateToRegMem (.memoryIndirect 0#3 0#16) (.immediate 1#16 .word) 4).text = "mov [bx + si],word 1" := by decide
/-- by hand from R112, the displacement of V3 row 11. -/
theorem test_step_immRmDisp8Word : stepOn [0xC7#8, 0x46#8, 0x00#8, 0x00#8, 0x80#8] =
    some (5, .running, [rec1 .immediateToRegMem (.memoryIndirect 6#3 0#16) (.immediate (-32768) .word) 5]) ∧
    (rec1 .immediateToRegMem (.memoryIndirect 6#3 0#16) (.immediate (-32768) .word) 5).text = "mov [bp],word -32768" := by decide
/-- V3 row 12. -/
theorem test_step_immRmDisp16Word : stepOn [0xC7#8, 0x85#8, 0x28#8, 0xFC#8, 0x5B#8, 0x01#8] =
    some (6, .running, [rec1 .immediateToRegMem (.memoryIndirect 5#3 (-984)) (.immediate 347#16 .word) 6]) ∧
    (rec1 .immediateToRegMem (.memoryIndirect 5#3 (-984)) (.immediate 347#16 .word) 6).text = "mov [di - 984],word 347" := by decide
/-- V5 row 4. -/
theorem test_step_memToAccByte : stepOn [0xA0#8, 0xFF#8] =
    some (2, .running, [rec1 .memToAcc (.register .byte 0#3) (.memoryDirect 255#16) 2]) ∧
    (rec1 .memToAcc (.register .byte 0#3) (.memoryDirect 255#16) 2).text = "mov al,[255]" := by decide
/-- V5 row 1. -/
theorem test_step_memToAccWord : stepOn [0xA1#8, 0xFB#8, 0x09#8] =
    some (3, .running, [rec1 .memToAcc (.register .word 0#3) (.memoryDirect 2555#16) 3]) ∧
    (rec1 .memToAcc (.register .word 0#3) (.memoryDirect 2555#16) 3).text = "mov ax,[2555]" := by decide
/-- V5 row 7. -/
theorem test_step_accToMemByte : stepOn [0xA2#8, 0x0F#8] =
    some (2, .running, [rec1 .accToMem (.memoryDirect 15#16) (.register .byte 0#3) 2]) ∧
    (rec1 .accToMem (.memoryDirect 15#16) (.register .byte 0#3) 2).text = "mov [15],al" := by decide
/-- V5 row 6. -/
theorem test_step_accToMemWord : stepOn [0xA3#8, 0xE8#8, 0x03#8] =
    some (3, .running, [rec1 .accToMem (.memoryDirect 1000#16) (.register .word 0#3) 3]) ∧
    (rec1 .accToMem (.memoryDirect 1000#16) (.register .word 0#3) 3).text = "mov [1000],ax" := by decide

/-! ### Failures and the end (spec/95_test_vectors.md V6, P8) -/

/-- V6 row 1, P8. -/
theorem test_empty_done : stepOn [] = some (0, .done, []) := by decide
/-- V6 row 3. -/
theorem test_unknown_last_byte : stepOn [0x8C#8] = some (0, .failUnknownOpcode, []) := by decide
/-- V6 row 5. -/
theorem test_unknown_prefix_byte : stepOn [0x26#8] = some (0, .failUnknownOpcode, []) := by decide
/-- V6 row 7. -/
theorem test_truncated_no_modrm : stepOn [0x89#8] = some (0, .failTruncated, []) := by decide
/-- V6 row 9. -/
theorem test_truncated_half_displacement : stepOn [0x8B#8, 0x80#8, 0x01#8] = some (0, .failTruncated, []) := by decide
/-- V6 row 17. -/
theorem test_truncated_five_of_six :
    stepOn [0xC7#8, 0x06#8, 0x0A#8, 0x00#8, 0xFF#8] = some (0, .failTruncated, []) := by decide
/-- V6 row 20. -/
theorem test_truncated_half_address : stepOn [0xA1#8, 0xFB#8] = some (0, .failTruncated, []) := by decide
/-- P5 step 1: the accumulator form with `W == 0` takes one address byte. -/
theorem test_p5_acc_takes_two_bytes : stepOn [0xA0#8, 0x34#8, 0x12#8] =
    some (2, .running, [rec1 .memToAcc (.register .byte 0#3) (.memoryDirect 52#16) 2]) := by decide
/-- P1 step 6, at offset 17 of its buffer: the step reads at and after `pos` only. -/
theorem test_p1_step6 :
    (after (step (at_ 17 [0xB8, 0x01, 0x00, 0x89, 0xC3, 0x8B, 0x4E, 0xFE, 0xC7, 0x06, 0x0A, 0x00, 0xFF, 0x00, 0xA1, 0xFB,
      0x09, 0xA2, 0x0F, 0x88, 0x08]))).map (fun t => (t.pos, t.status, t.out)) =
    some (19, .running, [rec1 .accToMem (.memoryDirect 15#16) (.register .byte 0#3) 2]) := by decide

/-! ### Table words and their placing -/

/-- Row `RegMemToFromReg`, `reg`: match 0x88C0, whose bits 15:8 are the first byte. -/
theorem test_table_word_rmReg : decodeTableWord 16 0x88C0 = some (.rmReg .regIsSource .byte 0#3 0#3) := by decide
/-- Row `ImmediateToRegMem`, `direct,imm16`: match 0xC706, operand bytes zero. -/
theorem test_table_word_immRmDirectWord : decodeTableWord 16 0xC706 = some (.immRmDirectWord 0#3 0#16 0#16) := by decide
/-- The placed word runs as the first instruction after reset. -/
theorem test_fetch_word_at_reset : (after (step (State.reset.withFetchWord 16 0xA100))).map (fun t => (t.pos, t.out)) =
    some (3, [rec1 .memToAcc (.register .word 0#3) (.memoryDirect 0#16) 3]) := by decide

/-! ### Witnesses of the statements' hypotheses -/

/-- Both ends of every accepted range, and of the gaps between them (V4). -/
theorem witness_classifier_ranges :
    [0xC6#8, 0xC7#8].all (fun b => decide (0xC6 ≤ b.toNat ∧ b.toNat ≤ 0xC7)) ∧
    [0xA0#8, 0xA1#8].all (fun b => decide (0xA0 ≤ b.toNat ∧ b.toNat ≤ 0xA1)) ∧
    [0xA2#8, 0xA3#8].all (fun b => decide (0xA2 ≤ b.toNat ∧ b.toNat ≤ 0xA3)) ∧
    [0x88#8, 0x8B#8].all (fun b => decide (0x88 ≤ b.toNat ∧ b.toNat ≤ 0x8B)) ∧
    [0xB0#8, 0xBF#8].all (fun b => decide (0xB0 ≤ b.toNat ∧ b.toNat ≤ 0xBF)) ∧
    [0x00#8, 0x87#8, 0x8C#8, 0x9F#8, 0xA4#8, 0xAF#8, 0xC0#8, 0xC5#8, 0xC8#8, 0xFF#8].all (fun b =>
      decide (b.toNat < 0x88 ∨ (0x8B < b.toNat ∧ b.toNat < 0xA0) ∨ (0xA3 < b.toNat ∧ b.toNat < 0xB0) ∨
        (0xBF < b.toNat ∧ b.toNat < 0xC6) ∨ 0xC7 < b.toNat)) := by decide

/-- Another order of the tests: the one the source warns of, the 4-bit mask first. -/
theorem witness_testOrder :
    [(0xF0#8, 0xB0#8, Variant.immediateToReg), (0xFE#8, 0xC6#8, .immediateToRegMem), (0xFE#8, 0xA0#8, .memToAcc),
      (0xFE#8, 0xA2#8, .accToMem), (0xFC#8, 0x88#8, .regMemToFromReg)].Perm
    [(0xFE#8, 0xC6#8, Variant.immediateToRegMem), (0xFE#8, 0xA0#8, .memToAcc), (0xFE#8, 0xA2#8, .accToMem),
      (0xFC#8, 0x88#8, .regMemToFromReg), (0xF0#8, 0xB0#8, .immediateToReg)] := by decide

theorem witness_decodeOfEncode : (Instr.rmMem .regIsDest .word 3#3 7#3).wf = true := by decide

theorem witness_encodeOfDecode : decode [0x89#8, 0xD9#8, 0x8C#8] = .ok (.rmReg .regIsSource .word 3#3 1#3, [0x8C#8]) := by
  decide

/-- The longest instruction, with bytes after it. -/
theorem witness_decodedLength : decode [0xC7#8, 0x06#8, 1#8, 2#8, 3#8, 4#8, 5#8] =
    .ok (.immRmDirectWord 0#3 0x0201#16 0x0403#16, [5#8]) := by decide

/-- For each length 2 to 6, a position from which exactly that many bytes are left; a base code beside `110`. -/
theorem witness_rowsEmit :
    (at_ 1 [0, 0, 0]).pos + 2 ≤ (at_ 1 [0, 0, 0]).buf.size ∧ (at_ 1 [0, 0, 0, 0]).pos + 3 ≤ (at_ 1 [0, 0, 0, 0]).buf.size ∧
    (at_ 1 [0, 0, 0, 0, 0]).pos + 4 ≤ (at_ 1 [0, 0, 0, 0, 0]).buf.size ∧
    (at_ 1 [0, 0, 0, 0, 0, 0]).pos + 5 ≤ (at_ 1 [0, 0, 0, 0, 0, 0]).buf.size ∧
    (at_ 1 [0, 0, 0, 0, 0, 0, 0]).pos + 6 ≤ (at_ 1 [0, 0, 0, 0, 0, 0, 0]).buf.size ∧ 5#3 ≠ 6#3 ∧ 7#3 ≠ 6#3 := by decide

/-- One byte short. -/
theorem witness_execTruncation : (Instr.memToAccWord 1#16).wf = true ∧
    (at_ 1 [0, 0, 0]).buf.size < (at_ 1 [0, 0, 0]).pos + (Instr.memToAccWord 1#16).length := by decide

/-- An emitting and a truncated case. -/
theorem witness_execFrame : (Instr.memToAccWord 1#16).wf = true ∧
    (∃ t, exec (.memToAccWord 1#16) (at_ 1 [0, 0, 0, 0]) = .next t ∧ t.pos = 4) ∧
    (∃ t, exec (.memToAccWord 1#16) (at_ 1 [0, 0, 0]) = .next t ∧ t.pos = 1) :=
  ⟨rfl, ⟨_, rfl, rfl⟩, ⟨_, rfl, rfl⟩⟩

theorem witness_stepRunsDecoded : (at_ 1 [0, 0xB1, 12]).status = .running ∧
    decode (at_ 1 [0, 0xB1, 12]).window = .ok (.immRegByte 1#3 12#8, []) := by decide

theorem witness_stepRunsInBuffer : (at_ 1 [0, 0xB1, 12]).buf.wf = true ∧ (at_ 1 [0, 0xB1, 12]).status = .running ∧
    (Instr.immRegByte 1#3 12#8).wf = true ∧ ∀ k, k < (Instr.immRegByte 1#3 12#8).length →
      (at_ 1 [0, 0xB1, 12]).buf.byte? ((at_ 1 [0, 0xB1, 12]).pos + k) = (encode (.immRegByte 1#3 12#8))[k]? := by decide

theorem witness_stepCompletes : (at_ 2 [0x89, 0xD9]).status = .running ∧
    (at_ 2 [0x89, 0xD9]).pos = (at_ 2 [0x89, 0xD9]).buf.size := by decide

theorem witness_stepUnknown : (at_ 2 [0x89, 0xD9, 0x8C]).buf.wf = true ∧ (at_ 2 [0x89, 0xD9, 0x8C]).status = .running ∧
    (at_ 2 [0x89, 0xD9, 0x8C]).buf.byte? 2 = some 0x8C#8 ∧ classify 0x8C#8 = .error .unknownOpcode := by decide

/-- The two ways of running short: no second byte, and a second byte that asks for more (V6 rows 7 and 17). -/
theorem witness_stepTruncation : (at_ 0 [0x89]).buf.wf = true ∧ (at_ 0 [0x89]).buf.byte? 0 = some 0x89#8 ∧
    classify 0x89#8 = .ok .regMemToFromReg ∧ (at_ 0 [0x89]).buf.size < (at_ 0 [0x89]).pos + 2 ∧
    (at_ 0 [0xC7, 6, 10, 0, 255]).buf.byte? 1 = some 6#8 ∧ classify 0xC7#8 = .ok .immediateToRegMem ∧
    (at_ 0 [0xC7, 6, 10, 0, 255]).buf.size < 0 + lengthTable .immediateToRegMem 0xC7#8 6#8 := by decide

/-- A failed step, for the converse half. -/
theorem witness_stepTruncation_converse : step (at_ 0 [0x89]) = .next ((at_ 0 [0x89]).ended .failTruncated) := rfl

/-- Exactly the six bytes needed. -/
theorem witness_stepDecodes : (at_ 1 [0, 0xC7, 6, 10, 0, 255, 0]).buf.wf = true ∧
    (at_ 1 [0, 0xC7, 6, 10, 0, 255, 0]).status = .running ∧
    (at_ 1 [0, 0xC7, 6, 10, 0, 255, 0]).buf.byte? 1 = some 0xC7#8 ∧
    (at_ 1 [0, 0xC7, 6, 10, 0, 255, 0]).buf.byte? 2 = some 6#8 ∧ classify 0xC7#8 = .ok .immediateToRegMem ∧
    1 + lengthTable .immediateToRegMem 0xC7#8 6#8 ≤ (at_ 1 [0, 0xC7, 6, 10, 0, 255, 0]).buf.size := by decide

theorem witness_terminal : [Status.done, .failUnknownOpcode, .failTruncated].all (fun st =>
    decide (((at_ 0 []).ended st).status ≠ .running)) := by decide

/-- A canonical buffer and a running state: also the witness of the driver step and of the always-stepping statement. -/
theorem witness_canonicalRunning : (at_ 1 [0, 0xB1, 12]).buf.wf = true ∧ (at_ 1 [0, 0xB1, 12]).status = .running := by decide

/-- A record that ends exactly at the end of the buffer. -/
theorem witness_decodedRecord : (at_ 1 [0, 0xB1, 12]).buf.wf = true ∧ (at_ 1 [0, 0xB1, 12]).status = .running ∧
    decodeAt (at_ 1 [0, 0xB1, 12]).buf 1 =
      .ok (rec1 .immediateToReg (.register .byte 1#3) (.immediate 12#16 .byte) 2) := by decide

/-- The two failures of a decode at an offset below `LEN`, its last one. -/
theorem witness_failedDecode : (at_ 1 [0, 0x8C]).buf.wf = true ∧ (at_ 1 [0, 0x8C]).status = .running ∧
    (at_ 1 [0, 0x8C]).pos < (at_ 1 [0, 0x8C]).buf.size ∧ decodeAt (at_ 1 [0, 0x8C]).buf 1 = .error .unknownOpcode ∧
    (at_ 1 [0, 0x89]).buf.wf = true ∧ decodeAt (at_ 1 [0, 0x89]).buf 1 = .error .truncatedInstruction := by decide

/-- The same window at different positions of different buffers. -/
theorem witness_window : (at_ 1 [0, 0xB1, 12]).buf.wf = true ∧ (at_ 2 [5, 5, 0xB1, 12]).buf.wf = true ∧
    (at_ 1 [0, 0xB1, 12]).status = .running ∧ (at_ 2 [5, 5, 0xB1, 12]).status = .running ∧
    (at_ 1 [0, 0xB1, 12]).pos ≤ (at_ 1 [0, 0xB1, 12]).buf.size ∧
    (at_ 2 [5, 5, 0xB1, 12]).pos ≤ (at_ 2 [5, 5, 0xB1, 12]).buf.size ∧
    (at_ 1 [0, 0xB1, 12]).window = (at_ 2 [5, 5, 0xB1, 12]).window := by decide

/-- A step that presents a record and one that does not. -/
theorem witness_recordPort : (State.boot [0xB1, 12]).buf.wf = true ∧ (State.boot [0xB1]).buf.wf = true ∧
    (∃ t, step (State.boot [0xB1, 12]) = .next t ∧ t.status = .running) ∧
    (∃ t, step (State.boot [0xB1]) = .next t ∧ t.status = .failTruncated) :=
  ⟨rfl, rfl, ⟨_, rfl, rfl⟩, ⟨_, rfl, rfl⟩⟩

/-- R191, R22: the port is silent in the reset state over a buffer whose first instruction decodes; the step presents it. -/
theorem test_port_reset_state : (State.boot [0xB1, 12]).assertRst.recValidIn .rst = false ∧
    (State.boot [0xB1, 12]).assertRst.recValidIn .rest = false ∧
    (State.boot [0xB1, 12]).assertRst.recValidIn .step = true := by decide

/-- Every event leads on from a canonical buffer that meets the invariant. -/
theorem witness_events : (State.boot [0xB1, 12]).Inv ∧
    ∀ e : Event, ∃ t, (State.boot [0xB1, 12]).onEvent e = .next t :=
  ⟨⟨by decide, by decide, rfl, by decide, by decide⟩, fun e => by cases e <;> exact ⟨_, rfl⟩⟩

/-- The byte facts of a buffer the byte statements speak of. -/
def bytesAre (s : State) (bs : List Byte) : Bool :=
  s.buf.wf && decide (s.status = .running) && (List.range bs.length).all fun k => s.buf.byte? (s.pos + k) == bs[k]?

/-- Each clause of the `RegMemToFromReg` statement: `MOD` 3, 0, 0 with `RM` 6, 1, 2, at the two ends of the first-byte range;
then the truncated ones. -/
theorem witness_regMemFromBytes :
    bytesAre (at_ 1 [0, 0x88, 0xC1]) [0x88, 0xC1] ∧ (0xC1#8).toNat / 64 = 3 ∧
    bytesAre (at_ 1 [0, 0x8B, 0x1B]) [0x8B, 0x1B] ∧ (0x1B#8).toNat / 64 = 0 ∧ (0x1B#8).toNat % 8 ≠ 6 ∧
    bytesAre (at_ 1 [0, 0x89, 0x1E, 10, 13]) [0x89, 0x1E, 10, 13] ∧ (0x1E#8).toNat / 64 = 0 ∧ (0x1E#8).toNat % 8 = 6 ∧
    bytesAre (at_ 1 [0, 0x8B, 0x56, 0x80]) [0x8B, 0x56, 0x80] ∧ (0x56#8).toNat / 64 = 1 ∧
    bytesAre (at_ 1 [0, 0x8B, 0x80, 0, 0x80]) [0x8B, 0x80, 0, 0x80] ∧ (0x80#8).toNat / 64 = 2 ∧
    (at_ 1 [0, 0x89]).buf.size < 1 + 2 ∧ (at_ 1 [0, 0x8B, 0x56]).buf.size < 1 + 3 ∧
    (at_ 1 [0, 0x8B, 0x80, 1]).buf.size < 1 + 4 ∧ (at_ 1 [0, 0x8B, 6, 5]).buf.size < 1 + 4 := by decide

/-- Each clause of the `ImmediateToReg` statement, at the ends of its ranges. -/
theorem witness_immRegFromBytes :
    bytesAre (at_ 1 [0, 0xB0, 0x80]) [0xB0, 0x80] ∧ bytesAre (at_ 1 [0, 0xB7, 0x7F]) [0xB7, 0x7F] ∧
    bytesAre (at_ 1 [0, 0xB8, 0, 0x80]) [0xB8, 0, 0x80] ∧ bytesAre (at_ 1 [0, 0xBF, 1, 2]) [0xBF, 1, 2] ∧
    (7#3).toNat = (0xBF#8).toNat % 8 ∧ (at_ 1 [0, 0xB7]).buf.size < 1 + 2 ∧ (at_ 1 [0, 0xB8, 1]).buf.size < 1 + 3 := by decide

/-- Each case of the destination in the `ImmediateToRegMem` statement, with a byte and with a word immediate, and truncated. -/
theorem witness_immRmFromBytes :
    bytesAre (at_ 1 [0, 0xC6, 0xC3, 5]) [0xC6, 0xC3, 5] ∧ (0xC3#8).toNat / 64 = 3 ∧
    bytesAre (at_ 1 [0, 0xC7, 3, 0xE8, 3]) [0xC7, 3, 0xE8, 3] ∧ (3#8).toNat / 64 = 0 ∧ (3#8).toNat % 8 ≠ 6 ∧
    bytesAre (at_ 1 [0, 0xC7, 6, 10, 0, 255, 0]) [0xC7, 6, 10, 0, 255, 0] ∧ (6#8).toNat / 64 = 0 ∧ (6#8).toNat % 8 = 6 ∧
    bytesAre (at_ 1 [0, 0xC6, 0x43, 0xFE, 0x80]) [0xC6, 0x43, 0xFE, 0x80] ∧ (0x43#8).toNat / 64 = 1 ∧
    bytesAre (at_ 1 [0, 0xC7, 0x85, 0x28, 0xFC, 0x5B, 1]) [0xC7, 0x85, 0x28, 0xFC, 0x5B, 1] ∧ (0x85#8).toNat / 64 = 2 ∧
    (-984 : Word16).toNat = (0x28#8).toNat + 256 * (0xFC#8).toNat ∧
    (at_ 1 [0, 0xC6]).buf.size < 1 + 2 ∧ (at_ 1 [0, 0xC7, 6, 10, 0, 255]).buf.size < 1 + 3 + 2 + (0xC7#8).toNat % 2 := by
  decide

/-- The four first bytes of the accumulator statement, whole and truncated. -/
theorem witness_accFromBytes :
    bytesAre (at_ 1 [0, 0xA0, 0xFF]) [0xA0, 0xFF] ∧ bytesAre (at_ 1 [0, 0xA2, 0]) [0xA2, 0] ∧
    bytesAre (at_ 1 [0, 0xA1, 0xFF, 0xFF]) [0xA1, 0xFF, 0xFF] ∧ bytesAre (at_ 1 [0, 0xA3, 0, 0]) [0xA3, 0, 0] ∧
    bytesAre (at_ 1 [0, 0xA0]) [0xA0] ∧ (at_ 1 [0, 0xA0]).buf.size < 1 + 2 ∧
    bytesAre (at_ 1 [0, 0xA3, 1]) [0xA3] ∧ (at_ 1 [0, 0xA3, 1]).buf.size < 1 + 3 := by decide

/-- ModR/M bytes that differ in `REG` only (V3 row 5). -/
theorem witness_ignoresReg : classify 0xC6#8 = .ok .immediateToRegMem ∧ (0xC3#8).toNat / 64 = (0xFB#8).toNat / 64 ∧
    (0xC3#8).toNat % 8 = (0xFB#8).toNat % 8 ∧ 0xC3#8 ≠ 0xFB#8 := by decide

/-- The first offset past the end. -/
theorem witness_pastTheEnd : (Memory.ofBytes [0x89]).wf = true ∧ (Memory.ofBytes [0x89]).size ≤ 1 := by decide

theorem witness_loneByte : classify 0x8C#8 = .error .unknownOpcode ∧ classify 0x89#8 = .ok .regMemToFromReg := by decide

/-- A state that meets the invariant and steps. -/
theorem witness_stepKeepsInvariant : (State.boot [0x89, 0xD9]).Inv ∧ ∃ t, step (State.boot [0x89, 0xD9]) = .next t :=
  ⟨⟨by decide, by decide, rfl, by decide, by decide⟩, ⟨_, rfl⟩⟩

/-- Two steps to `DONE`, and the two failures after one good instruction (V6 rows 22 and 23). -/
theorem witness_runs :
    (after (runSteps 2 (State.boot [0x89, 0xD9]))).map (fun t => (t.pos, t.status)) = some (2, .done) ∧
    (after (runSteps 2 (State.boot [0xB1, 12, 0]))).map (fun t => (t.pos, t.status)) = some (2, .failUnknownOpcode) ∧
    (after (runSteps 2 (State.boot [0x89, 0xD9, 0x8B]))).map (fun t => (t.pos, t.status)) = some (2, .failTruncated) := by
  decide

theorem witness_terminates : (at_ 1 [0, 0xB1, 12]).status = .running ∧
    (at_ 1 [0, 0xB1, 12]).pos ≤ (at_ 1 [0, 0xB1, 12]).buf.size := by decide

theorem witness_program : ∀ i ∈ [Instr.rmMem .regIsDest .word 3#3 7#3, .accToMemByte 15#8], i.wf = true := by decide

/-- A read that just fits and one that does not. -/
theorem witness_memRead : (Memory.ofBytes [1, 2, 3]).wf = true ∧ 1 + 2 ≤ (Memory.ofBytes [1, 2, 3]).size ∧
    (Memory.ofBytes [1, 2, 3]).size < 2 + 2 := by decide

theorem witness_canonicalBuffers : (Memory.ofBytes [1, 2]).wf = true ∧ [(0, 1#8), (1, 2#8)] = Memory.ofBytes [1, 2] := by
  decide

theorem witness_placedWord : decodeTableWord 16 0x88C0 = some (.rmReg .regIsSource .byte 0#3 0#3) := by decide

/-- A displacement of each sign, at the ends of the range. -/
theorem witness_indirectText : (0#16 : Word16).toInt = 0 ∧ 0 < (0x7FFF#16 : Word16).toInt ∧ 0 < (1#16 : Word16).toInt ∧
    (0x8000#16 : Word16).toInt < 0 ∧ (0xFFFF#16 : Word16).toInt < 0 := by decide

theorem witness_numeralZero : (dec 0).toList.head? = some '0' ∧ (dec 32768) = "32768" := by decide

end Sys2Proof.Tests
end

section
/-! PROOFS. The sign handling of R9: each conversion of the model by the integer it stands for, and O46 from these. -/

namespace Sys2Proof.Machine

/-- The model's signed reading of a 16-bit pattern (R9) is the library's two's complement value. -/
@[simp] theorem signed16_eq_toInt (v : Word16) : signed16 v = v.toInt := by
  rw [signed16, BitVec.toInt_eq_toNat_cond]
  split <;> split <;> omega

theorem toInt_word16_bounds (v : Word16) : -32768 ≤ v.toInt ∧ v.toInt ≤ 32767 :=
  ⟨v.le_toInt, v.toInt_le⟩

/-- `zext_16` keeps a byte's unsigned value. -/
@[simp] theorem toNat_zext16 (v : Byte) : (zext16 v).toNat = v.toNat :=
  BitVec.toNat_setWidth_of_le (by decide)

/-- `sext_16` fills the high byte with ones exactly when the byte's sign bit is set, that is from 128 on. -/
theorem toNat_sext16 (v : Byte) :
    (sext16 v).toNat = if v.toNat < 128 then v.toNat else v.toNat + 0xFF00 := by
  rw [sext16, BitVec.toNat_signExtend, BitVec.toNat_setWidth_of_le (by decide), BitVec.msb_eq_decide]
  by_cases h : v.toNat < 128
  · simp [h]
  · simp [h, Nat.not_lt.mp h]

/-- `sext_16` keeps a byte's signed value. -/
@[simp] theorem toInt_sext16 (v : Byte) : (sext16 v).toInt = v.toInt :=
  BitVec.toInt_signExtend_of_le (by decide)

/-- The signed value of a byte, by the half of the range it lies in. -/
theorem toInt_byte (v : Byte) :
    v.toInt = if v.toNat < 128 then (v.toNat : Int) else v.toNat - 256 := by
  rw [BitVec.toInt_eq_toNat_cond]
  split <;> split <;> omega

end Sys2Proof.Machine

namespace Sys2Proof
open Sys2Proof.Machine

/-- Settles O46: the signed reading is the two's complement value, sign extension keeps it, and zero extension keeps the
unsigned value (R9, R117). -/
theorem signHandlingIsExact : Obligations.SignHandlingIsExact := by
  unfold Obligations.SignHandlingIsExact
  constructor
  · intro v
    rw [signed16_eq_toInt]
    exact ⟨rfl, toInt_word16_bounds v⟩
  · intro v
    have hsigned : signed16 (sext16 v) = if v.toNat < 128 then (v.toNat : Int) else v.toNat - 256 := by
      rw [signed16_eq_toInt, toInt_sext16, toInt_byte]
    exact ⟨toNat_sext16 v, hsigned, toNat_zext16 v⟩

end Sys2Proof
end

section
/-! PROOFS. The decoder's consumption of bytes: how many bytes a decoded instruction took, and that it needs no byte after
the sixth. -/

namespace Sys2Proof
open Sys2Proof.Machine

/-! ### Results that may be a failure -/

@[simp] theorem except_map_ok {ε α β : Type} (f : α → β) (a : α) : (.ok a : Except ε α).map f = .ok (f a) := rfl

@[simp] theorem except_map_error {ε α β : Type} (f : α → β) (e : ε) : (.error e : Except ε α).map f = .error e := rfl

@[simp] theorem except_bind_ok {ε α β : Type} (a : α) (f : α → Except ε β) : (Except.ok a).bind f = f a := rfl

@[simp] theorem except_bind_error {ε α β : Type} (e : ε) (f : α → Except ε β) :
    (Except.error e).bind f = .error e := rfl

theorem except_map_eq_ok {ε α β : Type} {x : Except ε α} {f : α → β} {y : β} (h : x.map f = .ok y) :
    ∃ a, x = .ok a ∧ f a = y := by
  cases x with
  | error e => cases h
  | ok a => exact ⟨a, rfl, Except.ok.inj h⟩

/-! ### The bytes of a form and of a field -/

/-- The bytes a ModR/M form takes after the ModR/M byte (R57). -/
def RmForm.extra : RmForm → Nat
  | .reg _ => 0
  | .direct _ => 2
  | .mem _ => 0
  | .disp8 _ _ => 1
  | .disp16 _ _ => 2

@[simp] theorem regMemInstr_length (d : Direction) (w : Width) (reg : Code3) (f : RmForm) :
    (regMemInstr d w reg f).length = 2 + f.extra := by cases f <;> rfl

@[simp] theorem immRmByteInstr_length (x : Code3) (imm : Byte) (f : RmForm) :
    (immRmByteInstr x imm f).length = 2 + f.extra + 1 := by cases f <;> rfl

@[simp] theorem immRmWordInstr_length (x : Code3) (imm : Word16) (f : RmForm) :
    (immRmWordInstr x imm f).length = 2 + f.extra + 2 := by cases f <;> rfl

/-- Where a ModR/M form is decoded, the bytes after it are those after its displacement or address. -/
theorem decodeRm_append {m : Byte} {bs rest : List Byte} {f : RmForm} (h : decodeRm m bs = .ok (f, rest)) :
    ∃ used, bs = used ++ rest ∧ used.length = f.extra := by
  unfold decodeRm at h
  split at h
  · cases h
    exact ⟨[], rfl, rfl⟩
  split at h
  · split at h
    · obtain ⟨⟨v, r⟩, hv, heq⟩ := except_map_eq_ok h
      cases heq
      exact ⟨wordBytes v, takeWord_ok hv, rfl⟩
    · cases h
      exact ⟨[], rfl, rfl⟩
  split at h
  · obtain ⟨⟨v, r⟩, hv, heq⟩ := except_map_eq_ok h
    cases heq
    exact ⟨[v], takeByte_ok hv, rfl⟩
  · obtain ⟨⟨v, r⟩, hv, heq⟩ := except_map_eq_ok h
    cases heq
    exact ⟨wordBytes v, takeWord_ok hv, rfl⟩

theorem decodeRm_length {m : Byte} {bs : List Byte} {p : RmForm × List Byte} (h : decodeRm m bs = .ok p) :
    bs.length = p.1.extra + p.2.length := by
  obtain ⟨used, rfl, hused⟩ := decodeRm_append h
  rw [List.length_append, hused]

/-- The field of width `w` that ends an instruction: an immediate or an accumulator address (R52 to R54). -/
def takeField {α : Type} (w : Width) (ofByte : Byte → α) (ofWord : Word16 → α) (bs : List Byte) :
    Except Failure (α × List Byte) :=
  match w with
  | .byte => (takeByte bs).map fun p => (ofByte p.1, p.2)
  | .word => (takeWord bs).map fun p => (ofWord p.1, p.2)

theorem decodeImmReg_eq (b0 : Byte) (bs : List Byte) : decodeImmReg b0 bs =
    takeField (.ofBit (bitField b0 3)) (.immRegByte (rmField b0)) (.immRegWord (rmField b0)) bs := rfl

theorem decodeMemToAcc_eq (b0 : Byte) (bs : List Byte) : decodeMemToAcc b0 bs =
    takeField (.ofBit (bitField b0 0)) .memToAccByte .memToAccWord bs := rfl

theorem decodeAccToMem_eq (b0 : Byte) (bs : List Byte) : decodeAccToMem b0 bs =
    takeField (.ofBit (bitField b0 0)) .accToMemByte .accToMemWord bs := rfl

theorem decodeRegMem_cons (b0 m : Byte) (bs : List Byte) : decodeRegMem b0 (m :: bs) =
    (decodeRm m bs).map fun p =>
      (regMemInstr (.ofBit (bitField b0 1)) (.ofBit (bitField b0 0)) (regField m) p.1, p.2) := rfl

theorem decodeImmRm_cons (b0 m : Byte) (bs : List Byte) : decodeImmRm b0 (m :: bs) =
    (decodeRm m bs).bind fun p => takeField (.ofBit (bitField b0 0))
      (immRmByteInstr (regField m) · p.1) (immRmWordInstr (regField m) · p.1) p.2 := by
  rw [decodeImmRm, takeByte_cons]
  cases h : decodeRm m bs <;> simp only [h] <;> rfl

/-- A field takes the bytes by which its instruction is longer than the `n` bytes before the field. -/
theorem takeField_length {α : Type} {w : Width} {ofByte : Byte → α} {ofWord : Word16 → α} {bs : List Byte}
    {p : α × List Byte} (h : takeField w ofByte ofWord bs = .ok p) (size : α → Nat) {n : Nat}
    (hbyte : ∀ v, size (ofByte v) = n + 1) (hword : ∀ v, size (ofWord v) = n + 2) :
    n + bs.length = size p.1 + p.2.length := by
  cases w with
  | byte =>
    obtain ⟨q, hq, rfl⟩ := except_map_eq_ok h
    simp only [takeByte_ok hq, hbyte, List.length_cons]
    omega
  | word =>
    obtain ⟨q, hq, rfl⟩ := except_map_eq_ok h
    simp only [takeWord_ok hq, hword, List.length_cons]
    omega

theorem decodeRegMem_length {b0 : Byte} {bs : List Byte} {p : Instr × List Byte} (h : decodeRegMem b0 bs = .ok p) :
    1 + bs.length = p.1.length + p.2.length := by
  cases bs with
  | nil => cases h
  | cons m bs =>
    rw [decodeRegMem_cons] at h
    obtain ⟨q, hq, rfl⟩ := except_map_eq_ok h
    simp only [List.length_cons, regMemInstr_length, decodeRm_length hq]
    omega

theorem decodeImmRm_length {b0 : Byte} {bs : List Byte} {p : Instr × List Byte} (h : decodeImmRm b0 bs = .ok p) :
    1 + bs.length = p.1.length + p.2.length := by
  cases bs with
  | nil => cases h
  | cons m bs =>
    rw [decodeImmRm_cons] at h
    cases hf : decodeRm m bs with
    | error e => rw [hf] at h; cases h
    | ok q =>
      rw [hf, except_bind_ok] at h
      have hfield := takeField_length h Instr.length (immRmByteInstr_length _ · _) (immRmWordInstr_length _ · _)
      rw [List.length_cons, decodeRm_length hf]
      omega

/-- A decoded instruction and the bytes after it make up the byte sequence (R62). -/
theorem decode_length {bs : List Byte} {p : Instr × List Byte} (h : decode bs = .ok p) :
    bs.length = p.1.length + p.2.length := by
  cases bs with
  | nil => cases h
  | cons b0 bs =>
    rw [List.length_cons, Nat.add_comm]
    dsimp only [decode] at h
    split at h
    · cases h
    · exact decodeRegMem_length h
    · rw [decodeImmReg_eq] at h
      exact takeField_length h Instr.length (fun _ => rfl) (fun _ => rfl)
    · exact decodeImmRm_length h
    · rw [decodeMemToAcc_eq] at h
      exact takeField_length h Instr.length (fun _ => rfl) (fun _ => rfl)
    · rw [decodeAccToMem_eq] at h
      exact takeField_length h Instr.length (fun _ => rfl) (fun _ => rfl)

/-- With two bytes left a field is taken, and no byte after them matters. -/
theorem takeField_two {α : Type} (w : Width) (ofByte : Byte → α) (ofWord : Word16 → α) (b b' : Byte)
    (bs : List Byte) :
    (takeField w ofByte ofWord (b :: b' :: bs)).map Prod.fst =
      .ok (if w = .byte then ofByte b else ofWord (word16 b b')) := by
  cases w <;> rfl

/-- The first six bytes alone decide what is decoded (R21). -/
theorem decode_take_window (bs : List Byte) :
    (decode (bs.take Config.maxInstrLen)).map Prod.fst = (decode bs).map Prod.fst := by
  match bs with
  | b0 :: b1 :: b2 :: b3 :: b4 :: b5 :: tail =>
    simp only [Config.maxInstrLen, List.take_succ_cons, List.take_zero, decode]
    cases classify b0 with
    | error e => rfl
    | ok v =>
      cases v with
      | regMemToFromReg =>
        simp only [decodeRegMem_cons, decodeRm, takeByte, takeWord]
        split_ifs <;> rfl
      | immediateToRegMem =>
        simp only [decodeImmRm_cons, decodeRm, takeByte, takeWord]
        split_ifs <;> simp [takeField_two]
      | immediateToReg => simp only [decodeImmReg_eq, takeField_two]
      | memToAcc => simp only [decodeMemToAcc_eq, takeField_two]
      | accToMem => simp only [decodeAccToMem_eq, takeField_two]
  | [] | [_] | [_, _] | [_, _, _] | [_, _, _, _] | [_, _, _, _, _] => rfl

end Sys2Proof
end

section
/-! PROOFS. The resolver against the decoder: on a canonical buffer `DecodeAt(p)` (R109 to R114) is the record of the
instruction the decoder reads at `p`. -/

namespace Sys2Proof
open Sys2Proof.Machine

/-! ### The record of an instruction -/

/-- The operand a ModR/M form names (R102). -/
def RmForm.operand (w : Width) : RmForm → Operand
  | .reg rm => .register w rm
  | .direct addr => .memoryDirect addr
  | .mem rm => baseOperand rm
  | .disp8 rm disp => disp8Operand rm disp
  | .disp16 rm disp => disp16Operand rm disp

/-- The record an instruction's meaning presents (R110 to R114). -/
def Instr.record : Instr → Record
  | .rmReg d w reg rm => regMemRecord d w reg (.register w rm) 0
  | .rmDirect d w reg addr => regMemRecord d w reg (.memoryDirect addr) 2
  | .rmMem d w reg rm => regMemRecord d w reg (baseOperand rm) 0
  | .rmDisp8 d w reg rm disp => regMemRecord d w reg (disp8Operand rm disp) 1
  | .rmDisp16 d w reg rm disp => regMemRecord d w reg (disp16Operand rm disp) 2
  | .immRegByte reg imm => immRegRecord .byte reg (immByteOperand imm) 1
  | .immRegWord reg imm => immRegRecord .word reg (immWordOperand imm) 2
  | .immRmRegByte _ rm imm => immRmRecord (.register .byte rm) (immByteOperand imm) 0 1
  | .immRmDirectByte _ addr imm => immRmRecord (.memoryDirect addr) (immByteOperand imm) 2 1
  | .immRmMemByte _ rm imm => immRmRecord (baseOperand rm) (immByteOperand imm) 0 1
  | .immRmDisp8Byte _ rm disp imm => immRmRecord (disp8Operand rm disp) (immByteOperand imm) 1 1
  | .immRmDisp16Byte _ rm disp imm => immRmRecord (disp16Operand rm disp) (immByteOperand imm) 2 1
  | .immRmRegWord _ rm imm => immRmRecord (.register .word rm) (immWordOperand imm) 0 2
  | .immRmDirectWord _ addr imm => immRmRecord (.memoryDirect addr) (immWordOperand imm) 2 2
  | .immRmMemWord _ rm imm => immRmRecord (baseOperand rm) (immWordOperand imm) 0 2
  | .immRmDisp8Word _ rm disp imm => immRmRecord (disp8Operand rm disp) (immWordOperand imm) 1 2
  | .immRmDisp16Word _ rm disp imm => immRmRecord (disp16Operand rm disp) (immWordOperand imm) 2 2
  | .memToAccByte addr => memToAccRecord .byte (acc8Operand addr) 1
  | .memToAccWord addr => memToAccRecord .word (.memoryDirect addr) 2
  | .accToMemByte addr => accToMemRecord .byte (acc8Operand addr) 1
  | .accToMemWord addr => accToMemRecord .word (.memoryDirect addr) 2

/-- Every meaning is the presentation of the instruction's record (R163). -/
theorem exec_eq_present (i : Instr) (s : State) : exec i s = present i.record s := by
  cases i <;> rfl

/-- Records that every state presents alike are equal. -/
theorem record_eq_of_present {r r' : Record} (h : ∀ s, present r s = present r' s) : r = r' := by
  have hs := h { State.reset with buf := List.replicate (r.bytesConsumed + r'.bytesConsumed) (0, 0#8) }
  rw [present_fits (by simp [State.reset, Memory.size]), present_fits (by simp [State.reset, Memory.size])] at hs
  have hstate := Host.Outcome.next.inj hs
  simpa [State.reset] using congrArg State.out hstate

/-- What `exec_presents` says of the record a meaning presents, said of the instruction's record. -/
theorem record_spec (i : Instr) :
    i.record.bytesConsumed = i.length ∧ i.record.variant = i.variant ∧ i.record.wellShaped = true := by
  obtain ⟨r, hr, hspec⟩ := exec_presents i
  rwa [record_eq_of_present fun s => (exec_eq_present i s).symm.trans (hr s)]

@[simp] theorem record_bytesConsumed (i : Instr) : i.record.bytesConsumed = i.length := (record_spec i).1

@[simp] theorem record_variant (i : Instr) : i.record.variant = i.variant := (record_spec i).2.1

/-- An instruction's record has a shape of R143. -/
@[simp] theorem record_wellShaped (i : Instr) : i.record.wellShaped = true := (record_spec i).2.2

theorem regMemInstr_record (d : Direction) (w : Width) (reg : Code3) (f : RmForm) :
    (regMemInstr d w reg f).record = regMemRecord d w reg (f.operand w) f.extra := by cases f <;> rfl

theorem immRmByteInstr_record (x : Code3) (imm : Byte) (f : RmForm) :
    (immRmByteInstr x imm f).record = immRmRecord (f.operand .byte) (immByteOperand imm) f.extra 1 := by cases f <;> rfl

theorem immRmWordInstr_record (x : Code3) (imm : Word16) (f : RmForm) :
    (immRmWordInstr x imm f).record = immRmRecord (f.operand .word) (immWordOperand imm) f.extra 2 := by cases f <;> rfl

/-! ### Reading the buffer -/

/-- A read inside a canonical buffer gives the bytes at its offsets (R37). -/
theorem memRead_eq {m : Memory} (hwf : m.wf = true) {a n : Nat} (h : a + n ≤ m.size) :
    memRead m a n = .ok ((m.bytes.drop a).take n) := by
  have hbytes : (fun k => m.byte? (a + k)) = fun k => m.bytes[a + k]? := funext fun k => Memory.byte?_of_wf hwf _
  rw [memRead, if_neg (by omega), hbytes, filterMap_range_getElem? _ _ _ (by rwa [Memory.length_bytes])]

theorem memRead_past {m : Memory} {a n : Nat} (h : m.size < a + n) :
    memRead m a n = .error .truncatedInstruction := if_pos h

theorem bytes_length_of_drop {m : Memory} {a : Nat} {bs : List Byte} (h : m.bytes.drop a = bs) :
    bs.length = m.size - a := by
  rw [← h, List.length_drop, Memory.length_bytes]

theorem drop_add_of_drop {α : Type} {l used rest : List α} {a : Nat} (h : l.drop a = used ++ rest) :
    l.drop (a + used.length) = rest := by
  rw [← List.drop_drop, h, List.drop_left]

theorem read8_eq {m : Memory} (hwf : m.wf = true) (a : Nat) :
    read8 m a = (takeByte (m.bytes.drop a)).map Prod.fst := by
  have hlen := bytes_length_of_drop (m := m) (a := a) rfl
  cases hd : m.bytes.drop a with
  | nil =>
    rw [read8, memRead_past (by simp only [hd, List.length_nil] at hlen; omega)]
    rfl
  | cons b bs =>
    rw [read8, memRead_eq hwf (by simp only [hd, List.length_cons] at hlen; omega), hd]
    rfl

/-- `(hi << 8) | lo` (R34). -/
theorem shift_or_eq_word16 (lo hi : Byte) : (hi.zeroExtend 16 <<< 8) ||| lo.zeroExtend 16 = word16 lo hi := by
  rw [word16, BitVec.append_def, BitVec.shiftLeftZeroExtend_eq, BitVec.setWidth'_eq]

theorem read16_eq {m : Memory} (hwf : m.wf = true) (a : Nat) :
    read16 m a = (takeWord (m.bytes.drop a)).map Prod.fst := by
  have hlen := bytes_length_of_drop (m := m) (a := a) rfl
  match hd : m.bytes.drop a with
  | [] | [_] =>
    rw [read16, memRead_past (by simp only [hd, List.length_cons, List.length_nil] at hlen; omega)]
    rfl
  | lo :: hi :: bs =>
    rw [read16, memRead_eq hwf (by simp only [hd, List.length_cons] at hlen; omega), hd]
    exact congrArg Except.ok (shift_or_eq_word16 lo hi)

theorem readModrm_eq {m : Memory} (hwf : m.wf = true) {p : Nat} {b0 : Byte} {bs : List Byte}
    (hd : m.bytes.drop p = b0 :: bs) : readModrm m p = (takeByte bs).map fun q => (b0, q.1) := by
  have hlen := bytes_length_of_drop hd
  cases bs with
  | nil =>
    rw [readModrm, memRead_past (by simp only [List.length_cons, List.length_nil] at hlen; omega)]
    rfl
  | cons m1 bs =>
    rw [readModrm, memRead_eq hwf (by simp only [List.length_cons] at hlen; omega), hd]
    rfl

/-! ### The resolver and the decoder read alike -/

/-- `RMOperand` is the operand of the ModR/M form decoded, with the number of its bytes (R102). -/
theorem rmOperand_eq {m : Memory} (hwf : m.wf = true) (p : Nat) (w : Width) (m1 : Byte) :
    rmOperand m p w (modField m1) (rmField m1) =
      (decodeRm m1 (m.bytes.drop (p + 2))).map fun q => (q.1.operand w, q.1.extra) := by
  unfold rmOperand decodeRm
  rw [read8_eq hwf, read16_eq hwf]
  by_cases h3 : modField m1 = 3#2
  · rw [if_pos h3, if_pos h3]
    rfl
  rw [if_neg h3, if_neg h3]
  by_cases h0 : modField m1 = 0#2
  · by_cases h6 : rmField m1 = 6#3
    · rw [if_pos ⟨h0, h6⟩, if_pos h0, if_pos h6]
      cases takeWord (m.bytes.drop (p + 2)) <;> rfl
    · rw [if_neg (h6 ·.2), if_pos h0, if_pos h0, if_neg h6]
      rfl
  rw [if_neg (h0 ·.1), if_neg h0, if_neg h0]
  by_cases h1 : modField m1 = 1#2
  · rw [if_pos h1, if_pos h1]
    cases takeByte (m.bytes.drop (p + 2)) <;> rfl
  · rw [if_neg h1, if_neg h1]
    cases takeWord (m.bytes.drop (p + 2)) <;> rfl

/-- The bytes of a field of width `w` (R106, R108). -/
def Width.bytes : Width → Nat
  | .byte => 1
  | .word => 2

theorem readImm_eq {m : Memory} (hwf : m.wf = true) (q : Nat) (w : Width) :
    readImm m q w =
      (takeField w immByteOperand immWordOperand (m.bytes.drop q)).map fun x => (x.1, w.bytes) := by
  cases w with
  | byte =>
    rw [readImm, read8_eq hwf, takeField]
    cases takeByte (m.bytes.drop q) <;> rfl
  | word =>
    rw [readImm, read16_eq hwf, takeField]
    cases takeWord (m.bytes.drop q) <;> rfl

theorem accAddr_eq {m : Memory} (hwf : m.wf = true) (p : Nat) (w : Width) :
    accAddr m p w =
      (takeField w acc8Operand .memoryDirect (m.bytes.drop (p + 1))).map fun x => (x.1, w.bytes) := by
  cases w with
  | byte =>
    rw [accAddr, read8_eq hwf, takeField]
    cases takeByte (m.bytes.drop (p + 1)) <;> rfl
  | word =>
    rw [accAddr, read16_eq hwf, takeField]
    cases takeWord (m.bytes.drop (p + 1)) <;> rfl

/-- Building the record from the operand that ends an instruction is taking the record of the instruction so ended. -/
theorem takeField_record {w : Width} {opOfByte : Byte → Operand} {opOfWord : Word16 → Operand}
    {ofByte : Byte → Instr} {ofWord : Word16 → Instr} {build : Operand × Nat → Record} (bs : List Byte)
    (hbyte : w = .byte → ∀ v, build (opOfByte v, 1) = (ofByte v).record)
    (hword : w = .word → ∀ v, build (opOfWord v, 2) = (ofWord v).record) :
    (((takeField w opOfByte opOfWord bs).map fun x => (x.1, w.bytes)).bind fun x => .ok (build x)) =
      (takeField w ofByte ofWord bs).map fun x => x.1.record := by
  cases w with
  | byte =>
    cases h : takeByte bs with
    | error e => simp [takeField, h]
    | ok p => simp [takeField, h, Width.bytes, hbyte]
  | word =>
    cases h : takeWord bs with
    | error e => simp [takeField, h]
    | ok p => simp [takeField, h, Width.bytes, hword]

section
variable {m : Memory} (hwf : m.wf = true) {p : Nat} {b0 : Byte} {bs : List Byte} (hd : m.bytes.drop p = b0 :: bs)
include hwf hd

theorem resolveRegMem_eq : resolveRegMem m p = (decodeRegMem b0 bs).map fun x => x.1.record := by
  rw [resolveRegMem, readModrm_eq hwf hd]
  cases bs with
  | nil => rfl
  | cons m1 bs =>
    have hrest : m.bytes.drop (p + 2) = bs := drop_add_of_drop (used := [b0, m1]) hd
    simp only [takeByte_cons, except_map_ok, bind, except_bind_ok, rmOperand_eq hwf, hrest, decodeRegMem_cons]
    cases decodeRm m1 bs with
    | error e => rfl
    | ok q =>
      simp only [except_map_ok, except_bind_ok, regMemInstr_record]
      cases Direction.ofBit (bitField b0 1) <;> rfl

theorem resolveImmReg_eq : resolveImmReg m p = (decodeImmReg b0 bs).map fun x => x.1.record := by
  have hrest : m.bytes.drop (p + 1) = bs := drop_add_of_drop (used := [b0]) hd
  simp only [resolveImmReg, read8_eq hwf, hd, takeByte_cons, except_map_ok, bind, except_bind_ok, readImm_eq hwf, hrest,
    decodeImmReg_eq]
  exact takeField_record bs (fun h _ => by rw [h]; rfl) (fun h _ => by rw [h]; rfl)

theorem resolveImmRm_eq : resolveImmRm m p = (decodeImmRm b0 bs).map fun x => x.1.record := by
  rw [resolveImmRm, readModrm_eq hwf hd]
  cases bs with
  | nil => rfl
  | cons m1 bs =>
    have hrest : m.bytes.drop (p + 2) = bs := drop_add_of_drop (used := [b0, m1]) hd
    simp only [takeByte_cons, except_map_ok, bind, except_bind_ok, rmOperand_eq hwf, hrest, decodeImmRm_cons]
    cases hform : decodeRm m1 bs with
    | error e => rfl
    | ok q =>
      obtain ⟨used, hused, hextra⟩ := decodeRm_append hform
      have hfield : m.bytes.drop (p + 2 + q.1.extra) = q.2 := hextra ▸ drop_add_of_drop (hrest.trans hused)
      simp only [except_map_ok, except_bind_ok, readImm_eq hwf, hfield]
      exact takeField_record q.2 (fun h _ => by rw [h, immRmByteInstr_record]; rfl)
        (fun h _ => by rw [h, immRmWordInstr_record]; rfl)

theorem resolveMemToAcc_eq : resolveMemToAcc m p = (decodeMemToAcc b0 bs).map fun x => x.1.record := by
  have hrest : m.bytes.drop (p + 1) = bs := drop_add_of_drop (used := [b0]) hd
  simp only [resolveMemToAcc, read8_eq hwf, hd, takeByte_cons, except_map_ok, bind, except_bind_ok, accAddr_eq hwf,
    hrest, decodeMemToAcc_eq]
  exact takeField_record bs (fun h _ => by rw [h]; rfl) (fun h _ => by rw [h]; rfl)

theorem resolveAccToMem_eq : resolveAccToMem m p = (decodeAccToMem b0 bs).map fun x => x.1.record := by
  have hrest : m.bytes.drop (p + 1) = bs := drop_add_of_drop (used := [b0]) hd
  simp only [resolveAccToMem, read8_eq hwf, hd, takeByte_cons, except_map_ok, bind, except_bind_ok, accAddr_eq hwf,
    hrest, decodeAccToMem_eq]
  exact takeField_record bs (fun h _ => by rw [h]; rfl) (fun h _ => by rw [h]; rfl)

end

/-- `DecodeAt` is the decoder on the bytes from the offset on (R109). -/
theorem decodeAt_eq_decode {m : Memory} (hwf : m.wf = true) (p : Nat) :
    decodeAt m p = (decode (m.bytes.drop p)).map fun x => x.1.record := by
  rw [decodeAt, Memory.byte?_of_wf hwf, ← List.head?_drop]
  cases hd : m.bytes.drop p with
  | nil => rfl
  | cons b0 bs =>
    dsimp only [List.head?_cons, decode]
    cases classify b0 with
    | error e => rfl
    | ok v =>
      cases v with
      | regMemToFromReg => exact resolveRegMem_eq hwf hd
      | immediateToReg => exact resolveImmReg_eq hwf hd
      | immediateToRegMem => exact resolveImmRm_eq hwf hd
      | memToAcc => exact resolveMemToAcc_eq hwf hd
      | accToMem => exact resolveAccToMem_eq hwf hd

/-- On a canonical buffer `DecodeAt(pos)` is the record of the instruction fetched from the window (R109, R162). -/
theorem decodeAt_eq_fetch {s : State} (hwf : s.buf.wf = true) :
    decodeAt s.buf s.pos = (fetch s).map Instr.record := by
  rw [decodeAt_eq_decode hwf, fetch, State.window_eq s hwf, decode_take_window]
  cases decode (s.buf.bytes.drop s.pos) <;> rfl

end Sys2Proof
end

section
/-! PROOFS. What one step can do, said once, and from it the invariant (O35, O36, O38, O57), the window (O25), the record
port (O26, O56), the frame of a meaning (O13) and the status codes (O54). -/

namespace Sys2Proof.Machine

/-! ### One step -/

theorem State.window_length_le (s : State) : s.window.length ≤ s.avail :=
  (List.length_filterMap_le _ _).trans_eq List.length_range

/-- A fetched instruction lies inside the buffer (R37, R115). -/
theorem fetch_fits {s : State} {i : Instr} (h : fetch s = .ok i) : s.pos + i.record.bytesConsumed ≤ s.buf.size := by
  obtain ⟨p, hp, rfl⟩ := except_map_eq_ok h
  have hlen := decode_length hp
  have hwin := s.window_length_le
  obtain ⟨-, hmin, -⟩ := Sys2Proof.Laws.EncodeLength.all p.1
  rw [record_bytesConsumed]
  simp only [State.avail, Config.maxInstrLen, Config.minInstrLen] at hwin hmin
  omega

section
variable {s : State} (hrun : s.status = .running)
include hrun

theorem step_at_end (hend : s.pos = s.buf.size) : step s = .next s.complete := by
  rw [step, hrun]
  exact if_pos hend

theorem step_of_fetch_ok (hpos : s.pos ≠ s.buf.size) {i : Instr} (h : fetch s = .ok i) :
    step s = .next ((s.emit i.record).advance i.record.bytesConsumed) := by
  rw [step, hrun]
  simp only [if_neg hpos, h, exec_eq_present, present_fits (fetch_fits h)]

theorem step_of_fetch_error (hpos : s.pos ≠ s.buf.size) {f : Failure} (h : fetch s = .error f) :
    step s = .next (s.takeFailure f) := by
  rw [step, hrun]
  simp only [if_neg hpos, h]

end

theorem running_of_step {s t : State} (h : step s = .next t) : s.status = .running := by
  unfold step at h
  split at h
  · assumption
  all_goals cases h

/-- What a step can do: complete at the end of the buffer, emit the record of the fetched instruction and advance past it,
or take the failure of the fetch (R160 to R164). -/
inductive StepCase (s : State) : State → Prop
  | complete (hend : s.pos = s.buf.size) : StepCase s s.complete
  | emit (i : Instr) (hpos : s.pos ≠ s.buf.size) (hfetch : fetch s = .ok i) :
      StepCase s ((s.emit i.record).advance i.record.bytesConsumed)
  | fail (f : Failure) (hpos : s.pos ≠ s.buf.size) (hfetch : fetch s = .error f) : StepCase s (s.takeFailure f)

/-- A step that answers a state is one of the three cases. -/
theorem step_cases {s t : State} (h : step s = .next t) : StepCase s t := by
  have hrun := running_of_step h
  by_cases hpos : s.pos = s.buf.size
  · obtain rfl : s.complete = t := Host.Outcome.next.inj ((step_at_end hrun hpos).symm.trans h)
    exact .complete hpos
  · cases hf : fetch s with
    | ok i =>
      obtain rfl := Host.Outcome.next.inj ((step_of_fetch_ok hrun hpos hf).symm.trans h)
      exact .emit i hpos hf
    | error f =>
      obtain rfl := Host.Outcome.next.inj ((step_of_fetch_error hrun hpos hf).symm.trans h)
      exact .fail f hpos hf

@[simp] theorem failure_status_ne_done (f : Failure) : Failure.status f ≠ .done := by
  cases f <;> simp [Failure.status]

theorem failure_status_inj {f g : Failure} (h : Failure.status f = Failure.status g) : f = g := by
  cases f <;> cases g <;> simp [Failure.status] at h ⊢

theorem step_buf {s t : State} (h : step s = .next t) : t.buf = s.buf := by
  cases step_cases h <;> rfl

@[simp] theorem consumedSum_append (rs qs : List Record) :
    consumedSum (rs ++ qs) = consumedSum rs + consumedSum qs := by
  induction rs with
  | nil => simp [consumedSum]
  | cons r rs ih => simp [consumedSum, ih, Nat.add_assoc]

/-! ### The invariant -/

/-- The invariant asks nothing of a start of a run but the buffer's form. -/
theorem inv_of_start {s : State} (hbuf : s.buf.wf = true) (hpos : s.pos = 0) (hrun : s.status = .running)
    (hout : s.out = []) : s.Inv where
  bufCanonical := hbuf
  posInBuffer := hpos ▸ Nat.zero_le _
  posIsSum := by rw [hpos, hout, consumedSum]
  doneAtEnd := by simp [hrun]
  recordsShaped := by simp [hout]

theorem boot_inv (bs : List Byte) : (State.boot bs).Inv := inv_of_start (by simp) rfl rfl rfl

theorem inv_complete {s : State} (hs : s.Inv) (hend : s.pos = s.buf.size) : s.complete.Inv :=
  { hs with doneAtEnd := fun _ => hend }

theorem inv_takeFailure {s : State} (hs : s.Inv) (f : Failure) : (s.takeFailure f).Inv :=
  { hs with doneAtEnd := fun hdone => absurd hdone (failure_status_ne_done f) }

theorem inv_emit_advance {s : State} (hs : s.Inv) (hrun : s.status = .running) {r : Record}
    (hshape : r.wellShaped = true) (hfits : s.pos + r.bytesConsumed ≤ s.buf.size) :
    ((s.emit r).advance r.bytesConsumed).Inv where
  bufCanonical := hs.bufCanonical
  posInBuffer := hfits
  posIsSum := by simp [hs.posIsSum, consumedSum]
  doneAtEnd := by simp [hrun]
  recordsShaped := by simpa [or_imp, forall_and, hshape] using hs.recordsShaped

theorem step_keeps_inv {s t : State} (hs : s.Inv) (h : step s = .next t) : t.Inv := by
  cases step_cases h with
  | complete hend => exact inv_complete hs hend
  | emit i _ hfetch => exact inv_emit_advance hs (running_of_step h) (record_wellShaped i) (fetch_fits hfetch)
  | fail f => exact inv_takeFailure hs f

/-- Settles O35: each of the three states is the start of a run over a canonical buffer. -/
theorem startOfARunMeetsTheInvariant : Obligations.StartOfARunMeetsTheInvariant :=
  ⟨boot_inv, inv_of_start Memory.wf_reset rfl rfl rfl, fun _ hwf => inv_of_start hwf rfl rfl rfl⟩

/-- Settles O36, by the three things a step can do. -/
theorem stepKeepsTheInvariant : Obligations.StepKeepsTheInvariant :=
  fun _ _ hs h => step_keeps_inv hs h

/-- Settles O57, by the event: `rst` is a start, and a step is O36. -/
theorem everyEventKeepsTheInvariant : Obligations.EveryEventKeepsTheInvariant := by
  unfold Obligations.EveryEventKeepsTheInvariant
  intro e s t hs h
  cases e with
  | rst =>
    obtain rfl := Host.Outcome.next.inj h
    exact inv_of_start hs.bufCanonical rfl rfl rfl
  | rest =>
    obtain rfl := Host.Outcome.next.inj h
    exact hs
  | step => exact step_keeps_inv hs h

/-! ### Runs -/

/-- What every step keeps holds at every moment of a run. -/
theorem runSteps_keeps {P : State → Prop} (hstep : ∀ s t, P s → step s = .next t → P t) {k : Nat} {s t : State}
    (hs : P s) (h : runSteps k s = .next t) : P t := by
  induction k generalizing s with
  | zero =>
    obtain rfl := Host.Outcome.next.inj h
    exact hs
  | succ k ih =>
    obtain ⟨u, hu, hrun⟩ := runSteps_succ_next h
    exact ih (hstep s u hs hu) hrun

/-- The moments of a run over `bs`: the buffer is that of `bs`, the invariant holds, and a failure status is the failure of
`DecodeAt(pos)`. -/
structure RunMoment (bs : List Byte) (s : State) : Prop where
  buf : s.buf = Memory.ofBytes bs
  inv : s.Inv
  failure : ∀ f, s.status = Failure.status f → decodeAt s.buf s.pos = .error f

theorem runMoment_boot (bs : List Byte) : RunMoment bs (State.boot bs) where
  buf := rfl
  inv := boot_inv bs
  failure f hf := absurd hf.symm (failure_status_ne_running f)

theorem step_keeps_runMoment {bs : List Byte} {s t : State} (hs : RunMoment bs s) (h : step s = .next t) :
    RunMoment bs t where
  buf := (step_buf h).trans hs.buf
  inv := step_keeps_inv hs.inv h
  failure f hf := by
    have hrun := running_of_step h
    cases step_cases h with
    | complete => exact absurd hf.symm (failure_status_ne_done f)
    | emit => exact absurd (hf.symm.trans hrun) (failure_status_ne_running f)
    | fail g _ hfetch =>
      obtain rfl := failure_status_inj hf
      exact (decodeAt_eq_fetch hs.inv.bufCanonical).trans (by rw [hfetch, except_map_error])

/-- Settles O38: every moment of a run is a `RunMoment`, by induction on the steps. -/
theorem runLengthSum : Obligations.RunLengthSum := by
  unfold Obligations.RunLengthSum
  intro bs k t h
  obtain ⟨hbuf, hinv, hfailure⟩ :=
    runSteps_keeps (P := RunMoment bs) (fun _ _ => step_keeps_runMoment) (runMoment_boot bs) h
  rw [← hinv.posIsSum, ← hbuf]
  refine ⟨rfl, fun hdone => ?_, hfailure .unknownOpcode, hfailure .truncatedInstruction⟩
  rw [hinv.doneAtEnd hdone, hbuf, Memory.size_ofBytes]

/-! ### The record port -/

/-- There is no instruction at an offset `≥ LEN` (R184). -/
theorem decodeAt_past_end {m : Memory} (hwf : m.wf = true) {p : Nat} (h : m.size ≤ p) :
    decodeAt m p = .error .truncatedInstruction := by
  rw [decodeAt_eq_decode hwf, List.drop_eq_nil_of_le (by simpa using h)]
  rfl

/-- While a step is enabled the record lines are what `DecodeAt(pos)` answers (R22). -/
theorem recLines_of_running {s : State} (hwf : s.buf.wf = true) (hrun : s.status = .running) :
    s.recLines = (decodeAt s.buf s.pos).toOption := by
  by_cases hpos : s.pos < s.buf.size
  · exact if_pos ⟨hrun, hpos⟩
  · rw [State.recLines, if_neg (hpos ·.2), decodeAt_past_end hwf (Nat.le_of_not_lt hpos)]
    rfl

/-- `rec_valid` is 1 exactly where `DecodeAt(pos)` is a record and a step is enabled (R22). -/
theorem recValid_iff {s : State} (hwf : s.buf.wf = true) :
    s.recValid = true ↔ s.status = .running ∧ ∃ r, decodeAt s.buf s.pos = .ok r := by
  by_cases hrun : s.status = .running
  · rw [State.recValid, recLines_of_running hwf hrun]
    cases decodeAt s.buf s.pos <;> simp [Except.toOption, hrun]
  · simp [State.recValid, State.recLines, hrun]

/-- The record presented in a step is the one appended to `out` (R22). -/
theorem step_out {s t : State} (hwf : s.buf.wf = true) (h : step s = .next t) : t.out = s.out ++ s.recLines.toList := by
  rw [recLines_of_running hwf (running_of_step h)]
  cases step_cases h with
  | complete hend => simp [decodeAt_past_end hwf hend.ge, Except.toOption]
  | emit i _ hfetch => simp [decodeAt_eq_fetch hwf, hfetch, Except.toOption]
  | fail f _ hfetch => simp [decodeAt_eq_fetch hwf, hfetch, Except.toOption]

/-- After a step the block is running exactly when a record was presented (R22). -/
theorem recValid_iff_running {s t : State} (hwf : s.buf.wf = true) (h : step s = .next t) :
    s.recValid = true ↔ t.status = .running := by
  have hrun := running_of_step h
  rw [recValid_iff hwf]
  cases step_cases h with
  | complete hend => simp [decodeAt_past_end hwf hend.ge]
  | emit i _ hfetch => simp [decodeAt_eq_fetch hwf, hfetch, hrun]
  | fail f _ hfetch => simp [decodeAt_eq_fetch hwf, hfetch]

/-- Settles O26: the three cases of a step, each with what `DecodeAt(pos)` answers there. -/
theorem recordPortMatchesOut : Obligations.RecordPortMatchesOut :=
  fun _ _ hwf h => ⟨step_out hwf h, recValid_iff_running hwf h⟩

/-- Settles O56, by the event; a step by the record port of one step. -/
theorem outIsTheHistoryOfTheRecordPort : Obligations.OutIsTheHistoryOfTheRecordPort := by
  unfold Obligations.OutIsTheHistoryOfTheRecordPort
  intro e s hwf
  cases e with
  | rst =>
    refine ⟨by simp, fun t h => ?_⟩
    obtain rfl := Host.Outcome.next.inj h
    exact ⟨rfl, rfl⟩
  | rest =>
    refine ⟨by simp, fun t h => ?_⟩
    obtain rfl := Host.Outcome.next.inj h
    exact ⟨rfl, (List.append_nil _).symm⟩
  | step => exact ⟨by simpa using recValid_iff hwf, fun t h => ⟨step_buf h, step_out hwf h⟩⟩

/-! ### The window -/

theorem window_eq_nil_iff {s : State} (hwf : s.buf.wf = true) (hpos : s.pos ≤ s.buf.size) :
    s.window = [] ↔ s.pos = s.buf.size := by
  rw [State.window_eq s hwf, List.take_eq_nil_iff, List.drop_eq_nil_iff, Memory.length_bytes]
  simp only [Config.maxInstrLen]
  omega

/-- What a step does, as a function of the window alone: the advance, the next status and the records emitted (R21). -/
def windowEffect (w : List Byte) : Nat × Status × List Record :=
  if w = [] then (0, .done, [])
  else match (decode w).map Prod.fst with
    | .ok i => (i.record.bytesConsumed, .running, [i.record])
    | .error f => (0, Failure.status f, [])

/-- The result of a step depends on the window alone (R21). -/
theorem step_eq_windowEffect {s : State} (hwf : s.buf.wf = true) (hrun : s.status = .running)
    (hpos : s.pos ≤ s.buf.size) : step s = .next { s with
      pos := s.pos + (windowEffect s.window).1
      status := (windowEffect s.window).2.1
      out := s.out ++ (windowEffect s.window).2.2 } := by
  by_cases hend : s.pos = s.buf.size
  · rw [step_at_end hrun hend, (window_eq_nil_iff hwf hpos).2 hend]
    simp [windowEffect, State.complete]
  · have hwin : s.window ≠ [] := fun h => hend ((window_eq_nil_iff hwf hpos).1 h)
    rw [windowEffect, if_neg hwin, ← fetch]
    cases hf : fetch s with
    | ok i => simp [step_of_fetch_ok hrun hend hf, State.emit, State.advance, hrun]
    | error f => simp [step_of_fetch_error hrun hend hf, State.takeFailure]

/-- Settles O25: both steps are the same function of the window. -/
theorem windowDeterminesTheStep : Obligations.WindowDeterminesTheStep := by
  unfold Obligations.WindowDeterminesTheStep
  intro s₁ s₂ hwf₁ hwf₂ hrun₁ hrun₂ hpos₁ hpos₂ hwin
  exact ⟨_, _, _, step_eq_windowEffect hwf₁ hrun₁ hpos₁, hwin ▸ step_eq_windowEffect hwf₂ hrun₂ hpos₂⟩

/-! ### The frame of a meaning, and the status codes -/

/-- Settles O13: a meaning presents its record, and presenting emits and advances or takes the failure. -/
theorem execFrame : Obligations.ExecFrame := by
  unfold Obligations.ExecFrame
  intro i s t _ h
  rw [exec_eq_present] at h
  obtain ⟨-, hnext⟩ | ⟨-, hnext⟩ := present_cases i.record s
  · obtain rfl := Host.Outcome.next.inj (hnext.symm.trans h)
    exact ⟨rfl, fun _ => rfl, .inl ⟨rfl, by simp, i.record, rfl, record_variant i, record_bytesConsumed i⟩⟩
  · obtain rfl := Host.Outcome.next.inj (hnext.symm.trans h)
    exact ⟨rfl, fun _ => rfl, .inr ⟨rfl, rfl, rfl⟩⟩

/-- Settles O54, by the four statuses. -/
theorem statusCodes : Obligations.StatusCodes := by
  unfold Obligations.StatusCodes
  refine ⟨rfl, rfl, rfl, rfl, fun a b h => ?_, fun a => ?_⟩
  · cases a <;> cases b <;> simp [Status.code] at h ⊢
  · cases a <;> decide

end Sys2Proof.Machine
end

section
/-! PROOFS. The buffer as it is read (spec/20_memory.md): the offsets that exist and canonical buffers that read alike
(O44), the bounds-checked read (O42) and the little-endian 16-bit read (O43). -/

namespace Sys2Proof.Machine

/-! ### The offsets that exist -/

/-- The offsets of a canonical buffer are those below `LEN` (R30). -/
theorem Memory.isSome_byte?_iff {m : Memory} (hwf : m.wf = true) (a : Nat) :
    (m.byte? a).isSome = true ↔ a < m.size := by
  rw [Memory.byte?_of_wf hwf, isSome_getElem?, Memory.length_bytes]

theorem Memory.exists_byte?_eq_some {m : Memory} (hwf : m.wf = true) {a : Nat} (h : a < m.size) :
    ∃ b, m.byte? a = some b :=
  Option.isSome_iff_exists.mp ((Memory.isSome_byte?_iff hwf a).mpr h)

/-- Canonical buffers that read alike hold the same bytes, and a canonical buffer is the buffer of its bytes (R33). -/
theorem Memory.eq_of_byte?_eq {m₁ m₂ : Memory} (hwf₁ : m₁.wf = true) (hwf₂ : m₂.wf = true)
    (h : ∀ a, m₁.byte? a = m₂.byte? a) : m₁ = m₂ := by
  have hbytes : m₁.bytes = m₂.bytes := List.ext_getElem? fun a => by
    rw [← Memory.byte?_of_wf hwf₁, ← Memory.byte?_of_wf hwf₂, h]
  rw [Memory.eq_ofBytes hwf₁, hbytes, ← Memory.eq_ofBytes hwf₂]

/-- Settles O44. -/
theorem canonicalBuffersThatReadAlikeAreEqual : Obligations.CanonicalBuffersThatReadAlikeAreEqual := by
  unfold Obligations.CanonicalBuffersThatReadAlikeAreEqual
  intro m₁ m₂ hwf₁ hwf₂
  exact ⟨Memory.isSome_byte?_iff hwf₁, Memory.eq_of_byte?_eq hwf₁ hwf₂⟩

/-! ### The bounds-checked read -/

/-- The bytes a read inside a canonical buffer gives are those at the offsets asked for. -/
theorem getElem?_take_drop_bytes {m : Memory} (hwf : m.wf = true) (a : Nat) {n k : Nat} (hk : k < n) :
    ((m.bytes.drop a).take n)[k]? = m.byte? (a + k) := by
  rw [List.getElem?_take_of_lt hk, List.getElem?_drop, Memory.byte?_of_wf hwf]

/-- Settles O42: a read past `LEN` fails as a whole, and any other is the next `n` bytes from offset `a`. -/
theorem memReadIsBoundsChecked : Obligations.MemReadIsBoundsChecked := by
  unfold Obligations.MemReadIsBoundsChecked
  intro m a n hwf
  refine ⟨memRead_past, fun h => ⟨_, memRead_eq hwf h, ?_, fun k => getElem?_take_drop_bytes hwf a⟩⟩
  rw [List.length_take, bytes_length_of_drop rfl]
  omega

/-! ### The 16-bit read -/

theorem drop_bytes_of_byte? {m : Memory} (hwf : m.wf = true) {a : Nat} {b : Byte} (h : m.byte? a = some b) :
    m.bytes.drop a = b :: m.bytes.drop (a + 1) := by
  rw [Memory.byte?_of_wf hwf] at h
  obtain ⟨hlt, rfl⟩ := List.getElem?_eq_some_iff.mp h
  exact List.drop_eq_getElem_cons hlt

/-- `Read16` puts the byte at the lower offset low (R34). -/
theorem read16_of_byte? {m : Memory} (hwf : m.wf = true) {a : Nat} {lo hi : Byte}
    (hlo : m.byte? a = some lo) (hhi : m.byte? (a + 1) = some hi) : read16 m a = .ok (word16 lo hi) := by
  rw [read16_eq hwf, drop_bytes_of_byte? hwf hlo, drop_bytes_of_byte? hwf hhi]
  rfl

/-- Settles O43: both bytes exist, and the word they make is the high byte times 256 plus the low byte. -/
theorem read16IsLittleEndian : Obligations.Read16IsLittleEndian := by
  unfold Obligations.Read16IsLittleEndian
  intro m a hwf h
  obtain ⟨lo, hlo⟩ := Memory.exists_byte?_eq_some hwf (show a < m.size by omega)
  obtain ⟨hi, hhi⟩ := Memory.exists_byte?_eq_some hwf (show a + 1 < m.size by omega)
  exact ⟨lo, hi, word16 lo hi, hlo, hhi, read16_of_byte? hwf hlo hhi, (word16_toNat lo hi).trans (Nat.add_comm _ _)⟩

end Sys2Proof.Machine
end

section
/-! PROOFS. The decoder against the encoder: the five formats R51 to R54 as one first byte, the bytes of a ModR/M form and
the bytes of the field that ends the instruction; then the round trip (O4, O5), the lengths (O6) and whole words (O3). -/

namespace Sys2Proof
open Sys2Proof.Machine

/-! ### A ModR/M form as bytes -/

/-- Under `MOD == 00` a base expression has no `RM == 110` (R103). -/
def RmForm.wf : RmForm → Bool
  | .reg _ => true
  | .direct _ => true
  | .mem rm => rmIsBase rm
  | .disp8 _ _ => true
  | .disp16 _ _ => true

/-- The `MOD` field of a form (R57). -/
def RmForm.mod : RmForm → BitVec 2
  | .reg _ => 3#2
  | .direct _ => 0#2
  | .mem _ => 0#2
  | .disp8 _ _ => 1#2
  | .disp16 _ _ => 2#2

/-- The `RM` field of a form; 110 for the direct address (R57). -/
def RmForm.rm : RmForm → Code3
  | .reg rm => rm
  | .direct _ => 6#3
  | .mem rm => rm
  | .disp8 rm _ => rm
  | .disp16 rm _ => rm

/-- The bytes of a form after the ModR/M byte (R57). -/
def RmForm.tail : RmForm → List Byte
  | .reg _ => []
  | .direct addr => wordBytes addr
  | .mem _ => []
  | .disp8 _ disp => [disp]
  | .disp16 _ disp => wordBytes disp

@[simp] theorem takeWord_wordBytes (v : Word16) (bs : List Byte) : takeWord (wordBytes v ++ bs) = .ok (v, bs) :=
  takeWord_bytes v bs

/-- A ModR/M byte with the fields of a form, and the form's bytes, decode to the form. -/
theorem decodeRm_tail {f : RmForm} (hf : f.wf = true) (reg : Code3) (rest : List Byte) :
    decodeRm (modrm f.mod reg f.rm) (f.tail ++ rest) = .ok (f, rest) := by
  rw [decodeRm, modField_modrm, rmField_modrm]
  cases f with
  | mem rm =>
    have hrm : rm ≠ 6#3 := bne_iff_ne.mp hf
    simp [RmForm.mod, RmForm.rm, RmForm.tail, hrm]
  | reg | direct | disp8 | disp16 => simp [RmForm.mod, RmForm.rm, RmForm.tail]

/-- Where a form is decoded, the ModR/M byte has its fields and its bytes came first. -/
theorem decodeRm_ok {m : Byte} {bs rest : List Byte} {f : RmForm} (h : decodeRm m bs = .ok (f, rest)) :
    f.wf = true ∧ modrm f.mod (regField m) f.rm = m ∧ bs = f.tail ++ rest := by
  have hfields : ∀ {mod : BitVec 2} {rm : Code3}, modField m = mod → rmField m = rm → modrm mod (regField m) rm = m := by
    rintro _ _ rfl rfl
    exact modrm_fields m
  unfold decodeRm at h
  split at h
  · cases h
    exact ⟨rfl, hfields ‹_› rfl, rfl⟩
  split at h
  · split at h
    · obtain ⟨⟨v, r⟩, hv, heq⟩ := except_map_eq_ok h
      cases heq
      exact ⟨rfl, hfields ‹_› ‹_›, takeWord_ok hv⟩
    · cases h
      exact ⟨bne_iff_ne.mpr ‹_›, hfields ‹_› rfl, rfl⟩
  split at h
  · obtain ⟨⟨v, r⟩, hv, heq⟩ := except_map_eq_ok h
    cases heq
    exact ⟨rfl, hfields ‹_› rfl, takeByte_ok hv⟩
  · obtain ⟨⟨v, r⟩, hv, heq⟩ := except_map_eq_ok h
    cases heq
    have hmod : modField m = 2#2 := by bv_omega
    exact ⟨rfl, hfields hmod rfl, takeWord_ok hv⟩

/-! ### The field that ends an instruction -/

/-- An immediate or an accumulator address, with its width (R52 to R54). -/
inductive DataField where
  | byte (v : Byte)
  | word (v : Word16)

def DataField.width : DataField → Width
  | .byte _ => .byte
  | .word _ => .word

/-- The bytes of a field, low byte first (R34). -/
def DataField.bytes : DataField → List Byte
  | .byte v => [v]
  | .word v => wordBytes v

/-- What is made of a field, by its width. -/
def DataField.pick {α : Type} (ofByte : Byte → α) (ofWord : Word16 → α) : DataField → α
  | .byte v => ofByte v
  | .word v => ofWord v

theorem takeField_bytes {α : Type} (ofByte : Byte → α) (ofWord : Word16 → α) (v : DataField) (rest : List Byte) :
    takeField v.width ofByte ofWord (v.bytes ++ rest) = .ok (v.pick ofByte ofWord, rest) := by
  cases v with
  | byte v => rfl
  | word v => simp [takeField, DataField.width, DataField.bytes, DataField.pick]

/-- Where a field is taken, its bytes came first. -/
theorem takeField_ok {α : Type} {w : Width} {ofByte : Byte → α} {ofWord : Word16 → α} {bs rest : List Byte} {a : α}
    (h : takeField w ofByte ofWord bs = .ok (a, rest)) :
    ∃ v : DataField, w = v.width ∧ bs = v.bytes ++ rest ∧ a = v.pick ofByte ofWord := by
  cases w with
  | byte =>
    obtain ⟨⟨v, r⟩, hv, heq⟩ := except_map_eq_ok h
    cases heq
    exact ⟨.byte v, rfl, takeByte_ok hv, rfl⟩
  | word =>
    obtain ⟨⟨v, r⟩, hv, heq⟩ := except_map_eq_ok h
    cases heq
    exact ⟨.word v, rfl, takeWord_ok hv, rfl⟩

/-! ### An instruction by its format -/

/-- The `ImmediateToReg` row of an immediate (R52). -/
def immRegInstr (reg : Code3) (v : DataField) : Instr := v.pick (.immRegByte reg) (.immRegWord reg)

/-- The `ImmediateToRegMem` row of a ModR/M form and an immediate (R53). -/
def immRmInstr (x : Code3) (f : RmForm) (v : DataField) : Instr := v.pick (immRmByteInstr x · f) (immRmWordInstr x · f)

/-- The `MemToAcc` row of an address (R54). -/
def memToAccInstr (v : DataField) : Instr := v.pick .memToAccByte .memToAccWord

/-- The `AccToMem` row of an address (R54). -/
def accToMemInstr (v : DataField) : Instr := v.pick .accToMemByte .accToMemWord

/-- Every row of the table is of one of the five formats. -/
inductive Instr.OfFormat : Instr → Prop
  | regMem (d : Direction) (w : Width) (reg : Code3) (f : RmForm) : OfFormat (regMemInstr d w reg f)
  | immReg (reg : Code3) (v : DataField) : OfFormat (immRegInstr reg v)
  | immRm (x : Code3) (f : RmForm) (v : DataField) : OfFormat (immRmInstr x f v)
  | memToAcc (v : DataField) : OfFormat (memToAccInstr v)
  | accToMem (v : DataField) : OfFormat (accToMemInstr v)

theorem Instr.ofFormat : ∀ i : Instr, i.OfFormat
  | .rmReg d w reg rm => .regMem d w reg (.reg rm)
  | .rmDirect d w reg addr => .regMem d w reg (.direct addr)
  | .rmMem d w reg rm => .regMem d w reg (.mem rm)
  | .rmDisp8 d w reg rm disp => .regMem d w reg (.disp8 rm disp)
  | .rmDisp16 d w reg rm disp => .regMem d w reg (.disp16 rm disp)
  | .immRegByte reg imm => .immReg reg (.byte imm)
  | .immRegWord reg imm => .immReg reg (.word imm)
  | .immRmRegByte x rm imm => .immRm x (.reg rm) (.byte imm)
  | .immRmDirectByte x addr imm => .immRm x (.direct addr) (.byte imm)
  | .immRmMemByte x rm imm => .immRm x (.mem rm) (.byte imm)
  | .immRmDisp8Byte x rm disp imm => .immRm x (.disp8 rm disp) (.byte imm)
  | .immRmDisp16Byte x rm disp imm => .immRm x (.disp16 rm disp) (.byte imm)
  | .immRmRegWord x rm imm => .immRm x (.reg rm) (.word imm)
  | .immRmDirectWord x addr imm => .immRm x (.direct addr) (.word imm)
  | .immRmMemWord x rm imm => .immRm x (.mem rm) (.word imm)
  | .immRmDisp8Word x rm disp imm => .immRm x (.disp8 rm disp) (.word imm)
  | .immRmDisp16Word x rm disp imm => .immRm x (.disp16 rm disp) (.word imm)
  | .memToAccByte addr => .memToAcc (.byte addr)
  | .memToAccWord addr => .memToAcc (.word addr)
  | .accToMemByte addr => .accToMem (.byte addr)
  | .accToMemWord addr => .accToMem (.word addr)

@[simp] theorem wf_regMemInstr (d : Direction) (w : Width) (reg : Code3) (f : RmForm) :
    (regMemInstr d w reg f).wf = f.wf := by cases f <;> rfl

@[simp] theorem wf_immRegInstr (reg : Code3) (v : DataField) : (immRegInstr reg v).wf = true := by cases v <;> rfl

@[simp] theorem wf_immRmInstr (x : Code3) (f : RmForm) (v : DataField) : (immRmInstr x f v).wf = f.wf := by
  cases v <;> cases f <;> rfl

@[simp] theorem wf_memToAccInstr (v : DataField) : (memToAccInstr v).wf = true := by cases v <;> rfl

@[simp] theorem wf_accToMemInstr (v : DataField) : (accToMemInstr v).wf = true := by cases v <;> rfl

@[simp] theorem encode_regMemInstr (d : Direction) (w : Width) (reg : Code3) (f : RmForm) :
    encode (regMemInstr d w reg f) = opRegMem d w :: modrm f.mod reg f.rm :: f.tail := by cases f <;> rfl

@[simp] theorem encode_immRegInstr (reg : Code3) (v : DataField) :
    encode (immRegInstr reg v) = opImmReg v.width reg :: v.bytes := by cases v <;> rfl

@[simp] theorem encode_immRmInstr (x : Code3) (f : RmForm) (v : DataField) :
    encode (immRmInstr x f v) = opImmRm v.width :: modrm f.mod x f.rm :: (f.tail ++ v.bytes) := by
  cases v <;> cases f <;> rfl

@[simp] theorem encode_memToAccInstr (v : DataField) :
    encode (memToAccInstr v) = opMemToAcc v.width :: v.bytes := by cases v <;> rfl

@[simp] theorem encode_accToMemInstr (v : DataField) :
    encode (accToMemInstr v) = opAccToMem v.width :: v.bytes := by cases v <;> rfl

/-! ### Decoding what was encoded -/

theorem decodeRegMem_encoded {f : RmForm} (hf : f.wf = true) (d : Direction) (w : Width) (reg : Code3)
    (rest : List Byte) :
    decodeRegMem (opRegMem d w) (modrm f.mod reg f.rm :: (f.tail ++ rest)) = .ok (regMemInstr d w reg f, rest) := by
  simp [decodeRegMem_cons, decodeRm_tail hf]

theorem decodeImmReg_encoded (reg : Code3) (v : DataField) (rest : List Byte) :
    decodeImmReg (opImmReg v.width reg) (v.bytes ++ rest) = .ok (immRegInstr reg v, rest) := by
  rw [decodeImmReg_eq, width_opImmReg, rmField_opImmReg, takeField_bytes, immRegInstr]

theorem decodeImmRm_encoded {f : RmForm} (hf : f.wf = true) (x : Code3) (v : DataField) (rest : List Byte) :
    decodeImmRm (opImmRm v.width) (modrm f.mod x f.rm :: (f.tail ++ (v.bytes ++ rest))) =
      .ok (immRmInstr x f v, rest) := by
  rw [decodeImmRm_cons, decodeRm_tail hf, except_bind_ok, width_opImmRm, regField_modrm, takeField_bytes, immRmInstr]

theorem decodeMemToAcc_encoded (v : DataField) (rest : List Byte) :
    decodeMemToAcc (opMemToAcc v.width) (v.bytes ++ rest) = .ok (memToAccInstr v, rest) := by
  rw [decodeMemToAcc_eq, width_opMemToAcc, takeField_bytes, memToAccInstr]

theorem decodeAccToMem_encoded (v : DataField) (rest : List Byte) :
    decodeAccToMem (opAccToMem v.width) (v.bytes ++ rest) = .ok (accToMemInstr v, rest) := by
  rw [decodeAccToMem_eq, width_opAccToMem, takeField_bytes, accToMemInstr]

/-- Decoding an encoded well-formed instruction gives it back, by its format. -/
theorem decode_encode {i : Instr} (hi : i.wf = true) (rest : List Byte) : decode (encode i ++ rest) = .ok (i, rest) := by
  cases i.ofFormat with
  | regMem d w reg f => simp [decode, decodeRegMem_encoded (wf_regMemInstr d w reg f ▸ hi)]
  | immReg reg v => simp [decode, decodeImmReg_encoded]
  | immRm x f v => simp [decode, decodeImmRm_encoded (wf_immRmInstr x f v ▸ hi)]
  | memToAcc v => simp [decode, decodeMemToAcc_encoded]
  | accToMem v => simp [decode, decodeAccToMem_encoded]

/-- Settles O4, by the five formats. -/
theorem decodeOfEncode : Obligations.DecodeOfEncode :=
  fun _ rest hi => decode_encode hi rest

/-! ### Encoding what was decoded -/

theorem except_bind_eq_ok {ε α β : Type} {x : Except ε α} {f : α → Except ε β} {b : β} (h : x.bind f = .ok b) :
    ∃ a, x = .ok a ∧ f a = .ok b := by
  cases x with
  | error e => cases h
  | ok a => exact ⟨a, rfl, h⟩

theorem encode_of_decodeRegMem {b0 : Byte} {bs rest : List Byte} {i : Instr} (hc : classify b0 = .ok .regMemToFromReg)
    (h : decodeRegMem b0 bs = .ok (i, rest)) : i.wf = true ∧ b0 :: bs = encode i ++ rest := by
  cases bs with
  | nil => cases h
  | cons m bs =>
    rw [decodeRegMem_cons] at h
    obtain ⟨⟨f, r⟩, hf, heq⟩ := except_map_eq_ok h
    cases heq
    obtain ⟨hwf, hm, rfl⟩ := decodeRm_ok hf
    simp [hwf, hm, opRegMem_of_classify hc]

theorem encode_of_decodeImmRm {b0 : Byte} {bs rest : List Byte} {i : Instr} (hc : classify b0 = .ok .immediateToRegMem)
    (h : decodeImmRm b0 bs = .ok (i, rest)) : i.wf = true ∧ b0 :: bs = encode i ++ rest := by
  cases bs with
  | nil => cases h
  | cons m bs =>
    rw [decodeImmRm_cons] at h
    obtain ⟨⟨f, r⟩, hf, htake⟩ := except_bind_eq_ok h
    obtain ⟨v, hw, rfl, hi⟩ := takeField_ok htake
    obtain rfl : i = immRmInstr (regField m) f v := hi
    obtain ⟨hwf, hm, rfl⟩ := decodeRm_ok hf
    simp [hwf, hm, ← hw, opImmRm_of_classify hc]

/-- What decodes is well-formed and its bytes are its encoding, by the form its first byte classifies as. -/
theorem encode_of_decode {bs rest : List Byte} {i : Instr} (h : decode bs = .ok (i, rest)) :
    i.wf = true ∧ bs = encode i ++ rest := by
  cases bs with
  | nil => cases h
  | cons b0 bs =>
    dsimp only [decode] at h
    split at h
    case h_1 => cases h
    case h_2 hc => exact encode_of_decodeRegMem hc h
    case h_3 hc =>
      rw [decodeImmReg_eq] at h
      obtain ⟨v, hw, rfl, hi⟩ := takeField_ok h
      obtain rfl : i = immRegInstr (rmField b0) v := hi
      simp [← hw, opImmReg_of_classify hc]
    case h_4 hc => exact encode_of_decodeImmRm hc h
    case h_5 hc =>
      rw [decodeMemToAcc_eq] at h
      obtain ⟨v, hw, rfl, hi⟩ := takeField_ok h
      obtain rfl : i = memToAccInstr v := hi
      simp [← hw, opMemToAcc_of_classify hc]
    case h_6 hc =>
      rw [decodeAccToMem_eq] at h
      obtain ⟨v, hw, rfl, hi⟩ := takeField_ok h
      obtain rfl : i = accToMemInstr v := hi
      simp [← hw, opAccToMem_of_classify hc]

/-- Settles O5, by the form the first byte classifies as. -/
theorem encodeOfDecode : Obligations.EncodeOfDecode :=
  fun _ _ _ => encode_of_decode

/-! ### The length table -/

/-- A field of width `W` has `1 + W` bytes (R64). -/
theorem bytes_of_ofBit {b : BitVec 1} {w : Width} (h : Width.ofBit b = w) : w.bytes = 1 + b.toNat := by
  subst h; revert b; decide

theorem dispBytes_modrm {f : RmForm} (hf : f.wf = true) (reg : Code3) :
    dispBytes (modrm f.mod reg f.rm) = f.extra := by
  rw [dispBytes, modField_modrm, rmField_modrm]
  cases f with
  | mem rm =>
    have hrm : rm ≠ 6#3 := bne_iff_ne.mp hf
    simp [RmForm.mod, RmForm.rm, RmForm.extra, hrm]
  | reg | direct | disp8 | disp16 => simp [RmForm.mod, RmForm.rm, RmForm.extra]

@[simp] theorem immRegInstr_length (reg : Code3) (v : DataField) : (immRegInstr reg v).length = 1 + v.width.bytes := by
  cases v <;> rfl

@[simp] theorem immRmInstr_length (x : Code3) (f : RmForm) (v : DataField) :
    (immRmInstr x f v).length = 2 + f.extra + v.width.bytes := by
  cases v <;> cases f <;> rfl

@[simp] theorem memToAccInstr_length (v : DataField) : (memToAccInstr v).length = 1 + v.width.bytes := by
  cases v <;> rfl

@[simp] theorem accToMemInstr_length (v : DataField) : (accToMemInstr v).length = 1 + v.width.bytes := by
  cases v <;> rfl

@[simp] theorem regMemInstr_variant (d : Direction) (w : Width) (reg : Code3) (f : RmForm) :
    (regMemInstr d w reg f).variant = .regMemToFromReg := by cases f <;> rfl

@[simp] theorem immRegInstr_variant (reg : Code3) (v : DataField) : (immRegInstr reg v).variant = .immediateToReg := by
  cases v <;> rfl

@[simp] theorem immRmInstr_variant (x : Code3) (f : RmForm) (v : DataField) :
    (immRmInstr x f v).variant = .immediateToRegMem := by
  cases v <;> cases f <;> rfl

@[simp] theorem memToAccInstr_variant (v : DataField) : (memToAccInstr v).variant = .memToAcc := by cases v <;> rfl

@[simp] theorem accToMemInstr_variant (v : DataField) : (accToMemInstr v).variant = .accToMem := by cases v <;> rfl

/-- The first byte of an encoding classifies as the instruction's form, and the length table at the first two bytes is the
instruction's length (R62, R64). -/
theorem variant_length_of_encode {i : Instr} (hi : i.wf = true) {b0 m : Byte} {tail rest : List Byte}
    (h : b0 :: m :: tail = encode i ++ rest) :
    classify b0 = .ok i.variant ∧ i.length = lengthTable i.variant b0 m := by
  cases i.ofFormat with
  | regMem d w reg f =>
    rw [encode_regMemInstr] at h
    obtain ⟨rfl, rfl, -⟩ := h
    rw [wf_regMemInstr] at hi
    simp [lengthTable, dispBytes_modrm hi]
  | immReg reg v =>
    rw [encode_immRegInstr] at h
    obtain rfl := (List.cons.inj h).1
    simp [lengthTable, bytes_of_ofBit (width_opImmReg v.width reg), ← Nat.add_assoc]
  | immRm x f v =>
    rw [encode_immRmInstr] at h
    obtain ⟨rfl, rfl, -⟩ := h
    rw [wf_immRmInstr] at hi
    simp [lengthTable, dispBytes_modrm hi, bytes_of_ofBit (width_opImmRm v.width), ← Nat.add_assoc]
  | memToAcc v =>
    rw [encode_memToAccInstr] at h
    obtain rfl := (List.cons.inj h).1
    simp [lengthTable, bytes_of_ofBit (width_opMemToAcc v.width), ← Nat.add_assoc]
  | accToMem v =>
    rw [encode_accToMemInstr] at h
    obtain rfl := (List.cons.inj h).1
    simp [lengthTable, bytes_of_ofBit (width_opAccToMem v.width), ← Nat.add_assoc]

/-- Settles O6: what decodes is its encoding, and the first two bytes of an encoding have its form and length. -/
theorem decodedLengthIsTheTable : Obligations.DecodedLengthIsTheTable := by
  unfold Obligations.DecodedLengthIsTheTable
  intro b0 m tail rest i h
  obtain ⟨hi, hbytes⟩ := encode_of_decode h
  obtain ⟨hform, hlength⟩ := variant_length_of_encode hi hbytes
  exact ⟨hform, hlength, decode_length h⟩

/-! ### Whole words -/

/-- Settles O3: the decoder evaluates on each word. -/
theorem writtenOutWordsDecode : Obligations.WrittenOutWordsDecode :=
  ⟨rfl, rfl, rfl, rfl, rfl, rfl, rfl⟩

end Sys2Proof
end

section
/-! PROOFS. The rows of `ImmediateToRegMem` on the instruction (O9, O10), and one step from the bytes of the buffer: each
form by its fields (O27 to O30), truncation by the length table, and the `REG` field that is not examined (O31). -/

namespace Sys2Proof.Machine

/-! ### The meaning of an instruction that lies inside the buffer -/

/-- Presenting a record is moving past it (R140, R163). -/
theorem emit_advance_eq_moved (r : Record) (s : State) :
    (s.emit r).advance r.bytesConsumed = s.moved r.variant r.first r.second r.bytesConsumed := rfl

theorem exec_eq_moved (i : Instr) {s : State} (h : s.pos + i.record.bytesConsumed ≤ s.buf.size) :
    exec i s = .next (s.moved i.record.variant i.record.first i.record.second i.record.bytesConsumed) := by
  rw [exec_eq_present, present_fits h, emit_advance_eq_moved]

/-- `sext_16` gives the signed value of its byte (R9). -/
theorem toInt_sext16_eq_ite (v : Byte) :
    (sext16 v).toInt = if v.toNat < 128 then (v.toNat : Int) else v.toNat - 256 :=
  (toInt_sext16 v).trans (toInt_byte v)

/-- Settles O9: each row emits its record, whose immediate and displacement are the sign-extended bytes. -/
theorem immediateByteToRegMemRowsEmit : Obligations.ImmediateByteToRegMemRowsEmit := by
  unfold Obligations.ImmediateByteToRegMemRowsEmit
  intro x rm addr disp16 disp8 imm8 s
  exact ⟨sext16 imm8, sext16 disp8, toInt_sext16_eq_ite imm8, toInt_sext16_eq_ite disp8,
    exec_eq_moved (.immRmRegByte x rm imm8), exec_eq_moved (.immRmDirectByte x addr imm8),
    fun h _ => exec_eq_moved (.immRmMemByte x rm imm8) h, exec_eq_moved (.immRmDisp8Byte x rm disp8 imm8),
    exec_eq_moved (.immRmDisp16Byte x rm disp16 imm8)⟩

/-- Settles O10: each row emits its record, whose displacement is the sign-extended byte. -/
theorem immediateWordToRegMemRowsEmit : Obligations.ImmediateWordToRegMemRowsEmit := by
  unfold Obligations.ImmediateWordToRegMemRowsEmit
  intro x rm addr disp16 imm16 disp8 s
  exact ⟨sext16 disp8, toInt_sext16_eq_ite disp8,
    exec_eq_moved (.immRmRegWord x rm imm16), exec_eq_moved (.immRmDirectWord x addr imm16),
    fun h _ => exec_eq_moved (.immRmMemWord x rm imm16) h, exec_eq_moved (.immRmDisp8Word x rm disp8 imm16),
    exec_eq_moved (.immRmDisp16Word x rm disp16 imm16)⟩

/-! ### The fields of a byte by arithmetic -/

theorem bitField_eq_iff {b : Byte} {i : Nat} {c : BitVec 1} : bitField b i = c ↔ b.toNat / 2 ^ i % 2 = c.toNat := by
  rw [← BitVec.toNat_inj, bitField, BitVec.extractLsb'_toNat, Nat.shiftRight_eq_div_pow, pow_one]

theorem modField_eq_iff {m : Byte} {c : BitVec 2} : modField m = c ↔ m.toNat / 64 = c.toNat := by
  rw [← BitVec.toNat_inj, modField, BitVec.extractLsb'_toNat, Nat.shiftRight_eq_div_pow]
  have := m.isLt
  omega

theorem regField_eq_iff {m : Byte} {c : Code3} : regField m = c ↔ m.toNat / 8 % 8 = c.toNat := by
  rw [← BitVec.toNat_inj, regField, BitVec.extractLsb'_toNat, Nat.shiftRight_eq_div_pow]

theorem rmField_eq_iff {m : Byte} {c : Code3} : rmField m = c ↔ m.toNat % 8 = c.toNat := by
  rw [← BitVec.toNat_inj, rmField, BitVec.extractLsb'_toNat, Nat.shiftRight_zero]

theorem width_ofBit_bitField (b : Byte) (i : Nat) :
    Width.ofBit (bitField b i) = if b.toNat / 2 ^ i % 2 = 0 then .byte else .word := by
  simp only [Width.ofBit, bitField_eq_iff]
  rfl

theorem direction_ofBit_bitField (b : Byte) (i : Nat) :
    Direction.ofBit (bitField b i) = if b.toNat / 2 ^ i % 2 = 0 then .regIsSource else .regIsDest := by
  simp only [Direction.ofBit, bitField_eq_iff]
  rfl

theorem eq_word16_of_toNat {v : Word16} {lo hi : Byte} (h : v.toNat = lo.toNat + 256 * hi.toNat) : v = word16 lo hi :=
  BitVec.eq_of_toNat_eq (h.trans (word16_toNat lo hi).symm)

theorem eq_sext16_of_toInt {v : Word16} {b : Byte}
    (h : v.toInt = if b.toNat < 128 then (b.toNat : Int) else b.toNat - 256) : v = sext16 b :=
  BitVec.eq_of_toInt_eq (h.trans (toInt_sext16_eq_ite b).symm)

/-! ### The length table by arithmetic -/

theorem dispBytes_eq_ite (m : Byte) : dispBytes m =
    if m.toNat / 64 = 0 then (if m.toNat % 8 = 6 then 2 else 0)
    else if m.toNat / 64 = 1 then 1
    else if m.toNat / 64 = 2 then 2
    else 0 := by
  simp only [dispBytes, modField_eq_iff, rmField_eq_iff]
  rfl

theorem toNat_bitField (b : Byte) (i : Nat) : (bitField b i).toNat = b.toNat / 2 ^ i % 2 :=
  (bitField_eq_iff.mp rfl).symm

theorem two_le_lengthTable (v : Variant) (b0 m : Byte) : 2 ≤ lengthTable v b0 m := by
  cases v <;> simp only [lengthTable] <;> omega

/-! ### The classifier by ranges -/

theorem classify_of_range_regMem {b : Byte} (h : 0x88 ≤ b.toNat ∧ b.toNat ≤ 0x8B) :
    classify b = .ok .regMemToFromReg := by
  revert b; decide

theorem classify_of_range_immReg {b : Byte} (h : 0xB0 ≤ b.toNat ∧ b.toNat ≤ 0xBF) :
    classify b = .ok .immediateToReg := by
  revert b; decide

theorem classify_of_range_immRm {b : Byte} (h : 0xC6 ≤ b.toNat ∧ b.toNat ≤ 0xC7) :
    classify b = .ok .immediateToRegMem := by
  revert b; decide

/-! ### Reading present bytes -/

section
variable {mem : Memory} (hwf : mem.wf = true) {a : Nat} {lo hi : Byte} (hlo : mem.byte? a = some lo)
include hwf hlo

theorem read8_of_byte? : read8 mem a = .ok lo := by
  rw [read8_eq hwf, drop_bytes_of_byte? hwf hlo]
  rfl

theorem readImm_byte_of_byte? : readImm mem a .byte = .ok (.immediate (sext16 lo) .byte, 1) := by
  simp only [readImm, read8_of_byte? hwf hlo, bind, except_bind_ok]
  rfl

variable (hhi : mem.byte? (a + 1) = some hi)
include hhi

theorem readModrm_of_byte? : readModrm mem a = .ok (lo, hi) := by
  rw [readModrm_eq hwf (drop_bytes_of_byte? hwf hlo), drop_bytes_of_byte? hwf hhi]
  rfl

theorem readImm_word_of_byte? : readImm mem a .word = .ok (.immediate (word16 lo hi) .word, 2) := by
  simp only [readImm, read16_of_byte? hwf hlo hhi, bind, except_bind_ok]
  rfl

end

section
variable {mem : Memory} (hwf : mem.wf = true) {p : Nat} {lo hi : Byte} (hlo : mem.byte? (p + 1) = some lo)
include hwf hlo

theorem accAddr_byte_of_byte? : accAddr mem p .byte = .ok (.memoryDirect (zext16 lo), 1) := by
  simp only [accAddr, read8_of_byte? hwf hlo, bind, except_bind_ok]
  rfl

theorem accAddr_word_of_byte? (hhi : mem.byte? (p + 2) = some hi) :
    accAddr mem p .word = .ok (.memoryDirect (word16 lo hi), 2) := by
  simp only [accAddr, read16_of_byte? hwf hlo hhi, bind, except_bind_ok]
  rfl

end

section
variable {mem : Memory} {p : Nat} {w : Width} {m lo hi : Byte}

theorem rmOperand_register (hmod : m.toNat / 64 = 3) :
    rmOperand mem p w (modField m) (rmField m) = .ok (.register w (rmField m), 0) := by
  rw [rmOperand, modField_eq_iff (c := 3#2).mpr hmod]
  rfl

theorem rmOperand_base (hmod : m.toNat / 64 = 0) (hrm : (rmField m).toNat ≠ 6) :
    rmOperand mem p w (modField m) (rmField m) = .ok (.memoryIndirect (rmField m) 0#16, 0) := by
  have hrm : rmField m ≠ 6#3 := fun h => hrm (congrArg BitVec.toNat h)
  simp [rmOperand, modField_eq_iff (c := 0#2).mpr hmod, hrm]

variable (hwf : mem.wf = true) (hlo : mem.byte? (p + 2) = some lo)
include hwf hlo

theorem rmOperand_disp8 (hmod : m.toNat / 64 = 1) :
    rmOperand mem p w (modField m) (rmField m) = .ok (.memoryIndirect (rmField m) (sext16 lo), 1) := by
  rw [rmOperand, modField_eq_iff (c := 1#2).mpr hmod, read8_of_byte? hwf hlo]
  rfl

variable (hhi : mem.byte? (p + 3) = some hi)
include hhi

theorem rmOperand_direct (hmod : m.toNat / 64 = 0) (hrm : (rmField m).toNat = 6) :
    rmOperand mem p w (modField m) (rmField m) = .ok (.memoryDirect (word16 lo hi), 2) := by
  rw [rmOperand, modField_eq_iff (c := 0#2).mpr hmod, BitVec.eq_of_toNat_eq (y := 6#3) hrm, read16_of_byte? hwf hlo hhi]
  rfl

theorem rmOperand_disp16 (hmod : m.toNat / 64 = 2) :
    rmOperand mem p w (modField m) (rmField m) = .ok (.memoryIndirect (rmField m) (word16 lo hi), 2) := by
  rw [rmOperand, modField_eq_iff (c := 2#2).mpr hmod, read16_of_byte? hwf hlo hhi]
  rfl

end

/-! ### A decoder that has classified the first byte can only run short -/

/-- The only failure is `TruncatedInstruction` (R171). -/
def OnlyTruncates {α : Type} (x : Except Failure α) : Prop := ∀ f, x = .error f → f = .truncatedInstruction

theorem onlyTruncates_ok {α : Type} (a : α) : OnlyTruncates (.ok a) := nofun

theorem OnlyTruncates.map {α β : Type} {x : Except Failure α} (hx : OnlyTruncates x) (g : α → β) :
    OnlyTruncates (x.map g) := by
  cases x with
  | ok a => exact onlyTruncates_ok (g a)
  | error e => exact fun f h => hx f (congrArg Except.error (Except.error.inj h))

theorem OnlyTruncates.bind {α β : Type} {x : Except Failure α} (hx : OnlyTruncates x) {g : α → Except Failure β}
    (hg : ∀ a, OnlyTruncates (g a)) : OnlyTruncates (x.bind g) := by
  cases x with
  | ok a => exact hg a
  | error e => exact fun f h => hx f (congrArg Except.error (Except.error.inj h))

theorem onlyTruncates_takeByte (bs : List Byte) : OnlyTruncates (takeByte bs) := by
  cases bs with
  | nil => exact fun f h => (Except.error.inj h).symm
  | cons b bs => exact onlyTruncates_ok _

theorem onlyTruncates_takeWord : ∀ bs : List Byte, OnlyTruncates (takeWord bs)
  | [] | [_] => fun _ h => (Except.error.inj h).symm
  | _ :: _ :: _ => onlyTruncates_ok _

theorem onlyTruncates_takeField {α : Type} (w : Width) (ofByte : Byte → α) (ofWord : Word16 → α) (bs : List Byte) :
    OnlyTruncates (takeField w ofByte ofWord bs) := by
  cases w with
  | byte => exact (onlyTruncates_takeByte bs).map _
  | word => exact (onlyTruncates_takeWord bs).map _

theorem onlyTruncates_decodeRm (m : Byte) (bs : List Byte) : OnlyTruncates (decodeRm m bs) := by
  unfold decodeRm
  split_ifs
  · exact onlyTruncates_ok _
  · exact (onlyTruncates_takeWord bs).map _
  · exact onlyTruncates_ok _
  · exact (onlyTruncates_takeByte bs).map _
  · exact (onlyTruncates_takeWord bs).map _

theorem onlyTruncates_decode {b0 : Byte} {v : Variant} (hc : classify b0 = .ok v) (bs : List Byte) :
    OnlyTruncates (decode (b0 :: bs)) := by
  simp only [decode, hc]
  cases v with
  | regMemToFromReg =>
    cases bs with
    | nil => exact fun f h => (Except.error.inj h).symm
    | cons m bs => exact (onlyTruncates_decodeRm m bs).map _
  | immediateToReg => exact onlyTruncates_takeField _ _ _ _
  | immediateToRegMem =>
    cases bs with
    | nil => exact fun f h => (Except.error.inj h).symm
    | cons m bs =>
      simp only [decodeImmRm_cons]
      exact (onlyTruncates_decodeRm m bs).bind fun _ => onlyTruncates_takeField _ _ _ _
  | memToAcc => exact onlyTruncates_takeField _ _ _ _
  | accToMem => exact onlyTruncates_takeField _ _ _ _

/-! ### One step from what `DecodeAt` answers -/

/-- The instruction fetched is the one decoded from the bytes at `pos` on; six of them are enough (R21, R162). -/
theorem fetch_eq_decode {s : State} (hwf : s.buf.wf = true) :
    fetch s = (decode (s.buf.bytes.drop s.pos)).map Prod.fst := by
  rw [fetch, State.window_eq s hwf, decode_take_window]

section
variable {s : State} (hwf : s.buf.wf = true) (hrun : s.status = .running)
include hwf hrun

theorem step_of_decodeAt_ok {r : Record} (h : decodeAt s.buf s.pos = .ok r) :
    step s = .next (s.moved r.variant r.first r.second r.bytesConsumed) := by
  have hpos : s.pos ≠ s.buf.size := fun hend => by
    rw [decodeAt_past_end hwf hend.ge] at h
    cases h
  rw [decodeAt_eq_fetch hwf] at h
  obtain ⟨i, hi, rfl⟩ := except_map_eq_ok h
  rw [step_of_fetch_ok hrun hpos hi, emit_advance_eq_moved]

theorem step_of_decodeAt_error {f : Failure} (hpos : s.pos ≠ s.buf.size) (h : decodeAt s.buf s.pos = .error f) :
    step s = .next (s.takeFailure f) := by
  rw [decodeAt_eq_fetch hwf] at h
  cases hf : fetch s with
  | ok i => rw [hf] at h; cases h
  | error g =>
    obtain rfl : g = f := by simpa [hf] using h
    exact step_of_fetch_error hrun hpos hf

variable {b0 : Byte} (hb0 : s.buf.byte? s.pos = some b0)
include hb0

/-- A first byte that classifies, in a buffer that ends before the length the table gives whatever the second byte is, takes
`TruncatedInstruction` (R64, R171). -/
theorem step_truncated {v : Variant} (hc : classify b0 = .ok v)
    (hshort : ∀ m, s.buf.byte? (s.pos + 1) = some m → s.buf.size < s.pos + lengthTable v b0 m) :
    step s = .next (s.ended .failTruncated) := by
  have hlt : s.pos < s.buf.size := (Memory.isSome_byte?_iff hwf _).mp (by rw [hb0]; rfl)
  have hdrop := drop_bytes_of_byte? hwf hb0
  have hfetch := fetch_eq_decode hwf
  cases hdec : decode (s.buf.bytes.drop s.pos) with
  | error f =>
    obtain rfl := onlyTruncates_decode hc _ f (hdrop ▸ hdec)
    rw [hdec, except_map_error] at hfetch
    exact step_of_fetch_error hrun hlt.ne hfetch
  | ok p =>
    obtain ⟨i, rest⟩ := p
    rw [hdec, except_map_ok] at hfetch
    have hfits := fetch_fits hfetch
    obtain ⟨-, hmin, -⟩ := Sys2Proof.Laws.EncodeLength.all i
    simp only [record_bytesConsumed, Config.minInstrLen] at hfits hmin
    obtain ⟨m, hm⟩ := Memory.exists_byte?_eq_some hwf (show s.pos + 1 < s.buf.size by omega)
    rw [hdrop, drop_bytes_of_byte? hwf hm] at hdec
    obtain ⟨hform, hlength, -⟩ := decodedLengthIsTheTable _ _ _ _ _ hdec
    obtain rfl := Except.ok.inj (hc.symm.trans hform)
    have := hshort m hm
    omega

/-- With no second byte any form is truncated (R6). -/
theorem step_truncated_no_second {v : Variant} (hc : classify b0 = .ok v) (hshort : s.buf.size < s.pos + 2) :
    step s = .next (s.ended .failTruncated) :=
  step_truncated hwf hrun hb0 hc fun m _ => by
    have := two_le_lengthTable v b0 m
    omega

/-! ### One step of each form, from what the resolver reads after the first byte (R110 to R114) -/

theorem step_immReg (hc : classify b0 = .ok .immediateToReg) {w : Width} (hw : Width.ofBit (bitField b0 3) = w)
    {op : Operand} {n : Nat} (himm : readImm s.buf (s.pos + 1) w = .ok (op, n)) :
    step s = .next (s.moved .immediateToReg (.register w (rmField b0)) op (1 + n)) := by
  subst hw
  refine step_of_decodeAt_ok hwf hrun (r := immRegRecord _ _ op n) ?_
  simp only [decodeAt, hb0, hc, resolveImmReg, read8_of_byte? hwf hb0, himm, bind, except_bind_ok]
  rfl

theorem step_memToAcc (hc : classify b0 = .ok .memToAcc) {w : Width} (hw : Width.ofBit (bitField b0 0) = w)
    {op : Operand} {n : Nat} (haddr : accAddr s.buf s.pos w = .ok (op, n)) :
    step s = .next (s.moved .memToAcc (.register w 0#3) op (1 + n)) := by
  subst hw
  refine step_of_decodeAt_ok hwf hrun (r := memToAccRecord _ op n) ?_
  simp only [decodeAt, hb0, hc, resolveMemToAcc, read8_of_byte? hwf hb0, haddr, bind, except_bind_ok]
  rfl

theorem step_accToMem (hc : classify b0 = .ok .accToMem) {w : Width} (hw : Width.ofBit (bitField b0 0) = w)
    {op : Operand} {n : Nat} (haddr : accAddr s.buf s.pos w = .ok (op, n)) :
    step s = .next (s.moved .accToMem op (.register w 0#3) (1 + n)) := by
  subst hw
  refine step_of_decodeAt_ok hwf hrun (r := accToMemRecord _ op n) ?_
  simp only [decodeAt, hb0, hc, resolveAccToMem, read8_of_byte? hwf hb0, haddr, bind, except_bind_ok]
  rfl

variable {m : Byte} (hm : s.buf.byte? (s.pos + 1) = some m)
include hm

/-- `RegMemToFromReg`: `D` says which side `REG` stands on (R110). -/
theorem step_regMem (hc : classify b0 = .ok .regMemToFromReg) {op : Operand} {k : Nat}
    (hop : rmOperand s.buf s.pos (.ofBit (bitField b0 0)) (modField m) (rmField m) = .ok (op, k)) :
    step s = .next (if b0.toNat / 2 % 2 = 0
      then s.moved .regMemToFromReg op (.register (.ofBit (bitField b0 0)) (regField m)) (2 + k)
      else s.moved .regMemToFromReg (.register (.ofBit (bitField b0 0)) (regField m)) op (2 + k)) := by
  have hdec : decodeAt s.buf s.pos =
      .ok (regMemRecord (.ofBit (bitField b0 1)) (.ofBit (bitField b0 0)) (regField m) op k) := by
    simp only [decodeAt, hb0, hc, resolveRegMem, readModrm_of_byte? hwf hb0 hm, hop, bind, except_bind_ok]
    cases Direction.ofBit (bitField b0 1) <;> rfl
  rw [step_of_decodeAt_ok hwf hrun hdec, direction_ofBit_bitField, pow_one]
  split_ifs <;> rfl

theorem step_immRm (hc : classify b0 = .ok .immediateToRegMem) {w : Width} (hw : Width.ofBit (bitField b0 0) = w)
    {dst op : Operand} {k n : Nat} (hdst : rmOperand s.buf s.pos w (modField m) (rmField m) = .ok (dst, k))
    (himm : readImm s.buf (s.pos + 2 + k) w = .ok (op, n)) :
    step s = .next (s.moved .immediateToRegMem dst op (2 + k + n)) := by
  subst hw
  refine step_of_decodeAt_ok hwf hrun (r := immRmRecord dst op k n) ?_
  simp only [decodeAt, hb0, hc, resolveImmRm, readModrm_of_byte? hwf hb0 hm, hdst, himm, bind, except_bind_ok]
  rfl

end

/-! ### The forms from the bytes of the buffer -/

/-- Settles O27: each case of `MOD` and `RM` by the operand the resolver reads there, each truncation by the length table. -/
theorem regMemToFromRegFromBytes : Obligations.RegMemToFromRegFromBytes := by
  unfold Obligations.RegMemToFromRegFromBytes
  intro s b0 hwf hrun hb0 hge hle
  have hc := classify_of_range_regMem ⟨hge, hle⟩
  refine ⟨step_truncated_no_second hwf hrun hb0 hc, ?_⟩
  intro m w reg rm hm hw hreg hrm put
  obtain rfl : w = .ofBit (bitField b0 0) := by rw [hw, width_ofBit_bitField, pow_zero, Nat.div_one]
  obtain rfl := regField_eq_iff.mpr hreg.symm
  obtain rfl := rmField_eq_iff.mpr hrm.symm
  have hstep {op : Operand} {k : Nat} := step_regMem hwf hrun hb0 hm hc (op := op) (k := k)
  have htrunc (h : s.buf.size < s.pos + (2 + dispBytes m)) : step s = .next (s.ended .failTruncated) :=
    step_truncated hwf hrun hb0 hc fun m' hm' => Option.some.inj (hm.symm.trans hm') ▸ h
  rw [dispBytes_eq_ite] at htrunc
  refine ⟨fun hmod => hstep (rmOperand_register hmod), fun hmod h6 => hstep (rmOperand_base hmod h6), ?_, ?_, ?_, ?_, ?_⟩
  · exact fun lo hi hmod h6 hlo hhi =>
      ⟨word16 lo hi, word16_toNat lo hi, hstep (rmOperand_direct hwf hlo hhi hmod h6)⟩
  · exact fun lo hmod hlo => ⟨sext16 lo, toInt_sext16_eq_ite lo, hstep (rmOperand_disp8 hwf hlo hmod)⟩
  · exact fun lo hi hmod hlo hhi => ⟨word16 lo hi, word16_toNat lo hi, hstep (rmOperand_disp16 hwf hlo hhi hmod)⟩
  · exact fun hmod hsize => htrunc (by simpa [hmod] using hsize)
  · exact fun hmod hsize => htrunc (by split_ifs <;> omega)

/-- Settles O28: the immediate the resolver reads after the first byte, or truncation by the length table. -/
theorem immediateToRegFromBytes : Obligations.ImmediateToRegFromBytes := by
  unfold Obligations.ImmediateToRegFromBytes
  intro s b0 reg hwf hrun hb0 hreg
  obtain rfl := rmField_eq_iff.mpr hreg.symm
  have hc (hge : 0xB0 ≤ b0.toNat) (hle : b0.toNat ≤ 0xBF) : classify b0 = .ok .immediateToReg :=
    classify_of_range_immReg ⟨hge, hle⟩
  have hbyte (hge : 0xB0 ≤ b0.toNat) (hle : b0.toNat ≤ 0xB7) : Width.ofBit (bitField b0 3) = .byte := by
    rw [width_ofBit_bitField, if_pos (by omega)]
  have hword (hge : 0xB8 ≤ b0.toNat) (hle : b0.toNat ≤ 0xBF) : Width.ofBit (bitField b0 3) = .word := by
    rw [width_ofBit_bitField, if_neg (by omega)]
  refine ⟨fun lo hge hle hlo => ?_, fun lo hi hge hle hlo hhi => ?_, fun hge hle => ?_, fun hge hle hsize => ?_⟩
  · exact ⟨sext16 lo, toInt_sext16_eq_ite lo,
      step_immReg hwf hrun hb0 (hc (by omega) (by omega)) (hbyte hge hle) (readImm_byte_of_byte? hwf hlo)⟩
  · exact ⟨word16 lo hi, word16_toNat lo hi,
      step_immReg hwf hrun hb0 (hc (by omega) hle) (hword hge hle) (readImm_word_of_byte? hwf hlo hhi)⟩
  · exact step_truncated_no_second hwf hrun hb0 (hc hge (by omega))
  · refine step_truncated hwf hrun hb0 (hc (by omega) hle) fun m _ => ?_
    simp only [lengthTable, toNat_bitField]
    omega

/-- Settles O29: the destination and then the immediate the resolver reads, or truncation by the length table. -/
theorem immediateToRegMemFromBytes : Obligations.ImmediateToRegMemFromBytes := by
  unfold Obligations.ImmediateToRegMemFromBytes
  intro s b0 hwf hrun hb0 hge hle
  have hc := classify_of_range_immRm ⟨hge, hle⟩
  refine ⟨step_truncated_no_second hwf hrun hb0 hc, ?_⟩
  intro m lo hi e0 e1 w rm dst k hm hw hrm hcase
  replace hw : Width.ofBit (bitField b0 0) = w := by rw [hw, width_ofBit_bitField, pow_zero, Nat.div_one]
  obtain rfl := rmField_eq_iff.mpr hrm.symm
  refine ⟨fun hlo hhi he0 he1 => ?_, fun hsize => ?_⟩
  · have hdst : rmOperand s.buf s.pos w (modField m) (rmField m) = .ok (dst, k) := by
      obtain ⟨hmod, rfl, rfl⟩ | ⟨hmod, h6, rfl, rfl⟩ | ⟨hmod, h6, rfl, a, ha, rfl⟩ | ⟨hmod, rfl, d, rfl, hd⟩ |
        ⟨hmod, rfl, d, hd, rfl⟩ := hcase
      · exact rmOperand_register hmod
      · exact rmOperand_base hmod h6
      · rw [eq_word16_of_toNat ha]
        exact rmOperand_direct hwf (hlo (by decide)) (hhi (by decide)) hmod h6
      · rw [eq_sext16_of_toInt hd]
        exact rmOperand_disp8 hwf (hlo (by decide)) hmod
      · rw [eq_word16_of_toNat hd]
        exact rmOperand_disp16 hwf (hlo (by decide)) (hhi (by decide)) hmod
    have hstep {op : Operand} {n : Nat} := step_immRm hwf hrun hb0 hm hc hw hdst (op := op) (n := n)
    constructor
    · rintro rfl
      refine ⟨sext16 e0, toInt_sext16_eq_ite e0, ?_⟩
      rw [hstep (readImm_byte_of_byte? hwf he0), show 2 + k + 1 = 3 + k by omega]
    · rintro rfl
      refine ⟨word16 e0 e1, word16_toNat e0 e1, ?_⟩
      have he1 : s.buf.byte? (s.pos + 2 + k + 1) = some e1 := by
        rw [show s.pos + 2 + k + 1 = s.pos + 3 + k by omega, he1 rfl]
      rw [hstep (readImm_word_of_byte? hwf he0 he1), show 2 + k + 2 = 4 + k by omega]
  · have hk : dispBytes m = k := by
      rw [dispBytes_eq_ite]
      split_ifs <;> omega
    refine step_truncated hwf hrun hb0 hc fun m' hm' => ?_
    obtain rfl := Option.some.inj (hm.symm.trans hm')
    simp only [lengthTable, toNat_bitField]
    omega

/-- Settles O30: the address the resolver reads after the first byte, or truncation by the length table. -/
theorem accumulatorFormsFromBytes : Obligations.AccumulatorFormsFromBytes := by
  unfold Obligations.AccumulatorFormsFromBytes
  intro s b0 hwf hrun hb0
  refine ⟨fun lo hlo => ?_, fun lo hi hlo hhi => ?_, ?_, ?_⟩
  · have haddr := accAddr_byte_of_byte? hwf hlo
    refine ⟨zext16 lo, toNat_zext16 lo, ?_, ?_⟩
    · rintro rfl
      exact step_memToAcc hwf hrun hb0 rfl rfl haddr
    · rintro rfl
      exact step_accToMem hwf hrun hb0 rfl rfl haddr
  · have haddr := accAddr_word_of_byte? hwf hlo hhi
    refine ⟨word16 lo hi, word16_toNat lo hi, ?_, ?_⟩
    · rintro rfl
      exact step_memToAcc hwf hrun hb0 rfl rfl haddr
    · rintro rfl
      exact step_accToMem hwf hrun hb0 rfl rfl haddr
  · rintro (rfl | rfl) hsize
    · exact step_truncated_no_second hwf hrun hb0 (v := .memToAcc) rfl hsize
    · exact step_truncated_no_second hwf hrun hb0 (v := .accToMem) rfl hsize
  · rintro (rfl | rfl) hsize
    · exact step_truncated hwf hrun hb0 (v := .memToAcc) rfl fun _ _ => hsize
    · exact step_truncated hwf hrun hb0 (v := .accToMem) rfl fun _ _ => hsize

/-! ### The `REG` field of `ImmediateToRegMem` -/

/-- The record of `ImmediateToRegMem` does not depend on `REG` (R65). -/
theorem decodeImmRm_record_congr (b0 : Byte) {m m' : Byte} (hmod : modField m = modField m')
    (hrm : rmField m = rmField m') (bs : List Byte) :
    (decodeImmRm b0 (m :: bs)).map (fun x => x.1.record) = (decodeImmRm b0 (m' :: bs)).map fun x => x.1.record := by
  have hform : decodeRm m bs = decodeRm m' bs := by simp only [decodeRm, hmod, hrm]
  rw [decodeImmRm_cons, decodeImmRm_cons, hform]
  cases decodeRm m' bs with
  | error e => rfl
  | ok q =>
    simp only [except_bind_ok, takeField]
    cases Width.ofBit (bitField b0 0) with
    | byte => cases takeByte q.2 <;> simp [immRmByteInstr_record]
    | word => cases takeWord q.2 <;> simp [immRmWordInstr_record]

/-- Settles O31: `DecodeAt` answers the same in both buffers, and the step is decided by its answer. -/
theorem immediateToRegMemIgnoresReg : Obligations.ImmediateToRegMemIgnoresReg := by
  unfold Obligations.ImmediateToRegMemIgnoresReg
  intro before after b0 m m' out hc hmod hrm at_
  have hwf (x : Byte) : (at_ x).buf.wf = true := Memory.wf_ofBytes _
  have hpos (x : Byte) : (at_ x).pos ≠ (at_ x).buf.size := by simp [at_]
  have hdec (x : Byte) :
      decodeAt (at_ x).buf (at_ x).pos = (decodeImmRm b0 (x :: after)).map fun y => y.1.record := by
    simp [at_, decodeAt_eq_decode, decode, hc]
  have hsame := decodeImmRm_record_congr b0 (modField_eq_iff.mpr (hmod.trans (modField_eq_iff.mp rfl)))
    (rmField_eq_iff.mpr (hrm.trans (rmField_eq_iff.mp rfl))) after
  rw [← hdec, ← hdec] at hsame
  cases hd : decodeAt (at_ m').buf (at_ m').pos with
  | ok r => exact ⟨_, _, step_of_decodeAt_ok (hwf m) rfl (hsame.trans hd), step_of_decodeAt_ok (hwf m') rfl hd,
      rfl, rfl, rfl⟩
  | error f => exact ⟨_, _, step_of_decodeAt_error (hwf m) rfl (hpos m) (hsame.trans hd),
      step_of_decodeAt_error (hwf m') rfl (hpos m') hd, rfl, rfl, rfl⟩

end Sys2Proof.Machine
end

section
/-! PROOFS. The classifier (spec/40_classifier.md): each mask test is an interval of first bytes and the five intervals are
disjoint, so the form whose interval holds the byte is the classifier's answer, in any order of the tests (O1, O2). -/

namespace Sys2Proof

/-! ### A mask test as an interval of bytes -/

/-- Masking with the high bits clears the low `k` bits. -/
theorem and_highMask_eq_shift {n : Nat} (x : BitVec n) (k : Nat) : x &&& BitVec.allOnes n <<< k = x >>> k <<< k := by
  ext i hi
  by_cases hk : i < k
  · simp [hk]
  · simp [hk, Nat.add_sub_cancel' (Nat.le_of_not_lt hk), BitVec.getLsbD_eq_getElem hi]

/-- A byte passes the test of a high mask exactly if it lies in the block of `2 ^ k` bytes that begins at the pattern. -/
theorem and_highMask_eq_iff {b c : Byte} (k : Nat) (hc : 2 ^ k ∣ c.toNat) :
    b &&& BitVec.allOnes 8 <<< k = c ↔ c.toNat ≤ b.toNat ∧ b.toNat ≤ c.toNat + 2 ^ k - 1 := by
  obtain ⟨q, hq⟩ := hc
  have hpos : 0 < 2 ^ k := Nat.two_pow_pos k
  have hround : (b &&& BitVec.allOnes 8 <<< k).toNat = b.toNat / 2 ^ k * 2 ^ k := by
    rw [and_highMask_eq_shift, BitVec.toNat_shiftLeft, BitVec.toNat_ushiftRight, Nat.shiftRight_eq_div_pow,
      Nat.shiftLeft_eq, Nat.mod_eq_of_lt ((Nat.div_mul_le_self _ _).trans_lt b.isLt)]
  rw [← BitVec.toNat_inj, hround, hq, Nat.mul_comm (2 ^ k), Nat.mul_left_inj hpos.ne', Nat.div_eq_iff hpos]

/-- The first bytes of each form, as R81 to R85 list them. -/
def Variant.IsFirstByte (b : Byte) : Variant → Prop
  | .immediateToRegMem => 0xC6 ≤ b.toNat ∧ b.toNat ≤ 0xC7
  | .memToAcc => 0xA0 ≤ b.toNat ∧ b.toNat ≤ 0xA1
  | .accToMem => 0xA2 ≤ b.toNat ∧ b.toNat ≤ 0xA3
  | .regMemToFromReg => 0x88 ≤ b.toNat ∧ b.toNat ≤ 0x8B
  | .immediateToReg => 0xB0 ≤ b.toNat ∧ b.toNat ≤ 0xBF

section
variable {b : Byte}

theorem immRm_test_iff : b &&& 0xFE#8 = 0xC6#8 ↔ Variant.immediateToRegMem.IsFirstByte b :=
  and_highMask_eq_iff 1 (by decide)

theorem memToAcc_test_iff : b &&& 0xFE#8 = 0xA0#8 ↔ Variant.memToAcc.IsFirstByte b :=
  and_highMask_eq_iff 1 (by decide)

theorem accToMem_test_iff : b &&& 0xFE#8 = 0xA2#8 ↔ Variant.accToMem.IsFirstByte b :=
  and_highMask_eq_iff 1 (by decide)

theorem regMem_test_iff : b &&& 0xFC#8 = 0x88#8 ↔ Variant.regMemToFromReg.IsFirstByte b :=
  and_highMask_eq_iff 2 (by decide)

theorem immReg_test_iff : b &&& 0xF0#8 = 0xB0#8 ↔ Variant.immediateToReg.IsFirstByte b :=
  and_highMask_eq_iff 4 (by decide)

/-! ### The classifier's answer -/

/-- No byte is a first byte of two forms (R87). -/
theorem Variant.IsFirstByte.unique {v v' : Variant} (h : v.IsFirstByte b) (h' : v'.IsFirstByte b) : v = v' := by
  cases v <;> cases v' <;> simp only [Variant.IsFirstByte, reduceCtorEq] at h h' ⊢ <;> omega

/-- What the classifier can answer: a form the byte begins, or its failure where the byte begins none. -/
theorem classify_cases (b : Byte) :
    (∃ v, classify b = .ok v ∧ v.IsFirstByte b) ∨
    (classify b = .error .unknownOpcode ∧ ∀ v : Variant, ¬ v.IsFirstByte b) := by
  unfold classify
  split_ifs with immRm memToAcc accToMem regMem immReg
  · exact .inl ⟨_, rfl, immRm_test_iff.mp immRm⟩
  · exact .inl ⟨_, rfl, memToAcc_test_iff.mp memToAcc⟩
  · exact .inl ⟨_, rfl, accToMem_test_iff.mp accToMem⟩
  · exact .inl ⟨_, rfl, regMem_test_iff.mp regMem⟩
  · exact .inl ⟨_, rfl, immReg_test_iff.mp immReg⟩
  · refine .inr ⟨rfl, fun v => ?_⟩
    cases v with
    | immediateToRegMem => exact mt immRm_test_iff.mpr immRm
    | memToAcc => exact mt memToAcc_test_iff.mpr memToAcc
    | accToMem => exact mt accToMem_test_iff.mpr accToMem
    | regMemToFromReg => exact mt regMem_test_iff.mpr regMem
    | immediateToReg => exact mt immReg_test_iff.mpr immReg

theorem classify_eq_ok_iff {v : Variant} : classify b = .ok v ↔ v.IsFirstByte b := by
  obtain ⟨v', hc, hv'⟩ | ⟨hc, hnone⟩ := classify_cases b
  · rw [hc, Except.ok.injEq]
    exact ⟨fun h => h ▸ hv', hv'.unique⟩
  · simp [hc, hnone]

theorem classify_eq_unknownOpcode (hnone : ∀ v : Variant, ¬ v.IsFirstByte b) : classify b = .error .unknownOpcode := by
  obtain ⟨v, -, hv⟩ | ⟨hc, -⟩ := classify_cases b
  · exact absurd hv (hnone v)
  · exact hc

end

/-! ### The five tests in any order -/

/-- The five tests of the classifier, each with its mask, its pattern and its form (R81 to R85). -/
def classifierTests : List (Byte × Byte × Variant) :=
  [(0xFE#8, 0xC6#8, .immediateToRegMem), (0xFE#8, 0xA0#8, .memToAcc), (0xFE#8, 0xA2#8, .accToMem),
    (0xFC#8, 0x88#8, .regMemToFromReg), (0xF0#8, 0xB0#8, .immediateToReg)]

/-- Every test holds of exactly the first bytes of its form. -/
theorem test_iff_isFirstByte (b : Byte) :
    ∀ t ∈ classifierTests, (b &&& t.1 = t.2.1 ↔ t.2.2.IsFirstByte b) := by
  simp only [classifierTests, List.forall_mem_cons]
  exact ⟨immRm_test_iff, memToAcc_test_iff, accToMem_test_iff, regMem_test_iff, immReg_test_iff, by simp⟩

theorem exists_test_of_variant (v : Variant) : ∃ t ∈ classifierTests, t.2.2 = v := by
  cases v <;> decide

/-- Settles O2: a test that holds gives the form the byte begins, whatever tests stand before it, and where none holds the
byte begins no form. -/
theorem classifierPatternsAreDisjoint : Obligations.ClassifierPatternsAreDisjoint := by
  unfold Obligations.ClassifierPatternsAreDisjoint
  simp only [classify_eq_ok_iff]
  refine ⟨fun b => ⟨immRm_test_iff, memToAcc_test_iff, accToMem_test_iff, regMem_test_iff, immReg_test_iff⟩, ?_⟩
  intro tests hperm b
  have hmem {t} : t ∈ tests ↔ t ∈ classifierTests := hperm.mem_iff
  cases hfind : tests.find? (fun t => b &&& t.1 == t.2.1) with
  | some t =>
    have ht : t ∈ classifierTests := hmem.mp (List.mem_of_find?_eq_some hfind)
    have hpass : b &&& t.1 = t.2.1 := by simpa using List.find?_some hfind
    exact (classify_eq_ok_iff.mpr ((test_iff_isFirstByte b t ht).mp hpass)).symm
  | none =>
    refine (classify_eq_unknownOpcode fun v hv => ?_).symm
    obtain ⟨t, ht, rfl⟩ := exists_test_of_variant v
    have hpass : b &&& t.1 = t.2.1 := (test_iff_isFirstByte b t ht).mpr hv
    exact List.find?_eq_none.mp hfind t (hmem.mpr ht) (beq_iff_eq.mpr hpass)

/-- Settles O1: each range is the first bytes of its form, and a byte outside all five begins none. -/
theorem classifierAcceptsTheFiveRanges : Obligations.ClassifierAcceptsTheFiveRanges := by
  unfold Obligations.ClassifierAcceptsTheFiveRanges
  intro b
  simp only [classify_eq_ok_iff]
  refine ⟨id, id, id, id, id, fun hout => classify_eq_unknownOpcode fun v => ?_⟩
  cases v <;> simp only [Variant.IsFirstByte] <;> omega

end Sys2Proof
end

section
/-! PROOFS. The naming tables (spec/41_naming_tables.md): their entries (O47), names one-to-one with their codes (O48), and
the accumulator rows, whose register is code 0 of the width's table (O11). -/

namespace Sys2Proof.Machine

/-! ### The entries of the tables -/

/-- Settles O47: each table evaluates to the rule's list. -/
theorem registerNamingTables : Obligations.RegisterNamingTables := ⟨rfl, rfl⟩

/-! ### A name stands for one code -/

/-- The sixteen register names are pairwise distinct across the two tables (R90, R91). -/
theorem nodup_byteReg_append_wordReg : (byteReg.toList ++ wordReg.toList).Nodup := by decide

theorem nodup_baseExprTable : baseExprTable.toList.Nodup := by decide

/-- In an 8-entry table without repeated names a name stands at one code. -/
theorem code_eq_of_entry_eq {table : Vector String 8} (hnodup : table.toList.Nodup) {c c' : Code3}
    (h : table[c.toNat]'c.isLt = table[c'.toNat]'c'.isLt) : c = c' := by
  have hlt (d : Code3) : d.toNat < table.toList.length := by simpa using d.isLt
  have hentry (d : Code3) : table.toList[d.toNat]'(hlt d) = table[d.toNat]'d.isLt := Vector.getElem_toList _
  exact BitVec.eq_of_toNat_eq (hnodup.getElem_inj_iff.mp ((hentry c).trans (h.trans (hentry c').symm)))

theorem entry_mem_toList (table : Vector String 8) (c : Code3) : table[c.toNat]'c.isLt ∈ table.toList :=
  Vector.mem_toList_iff.mpr (Vector.getElem_mem c.isLt)

theorem baseExpr_injective : Function.Injective baseExpr := fun _ _ => code_eq_of_entry_eq nodup_baseExprTable

/-- No register name is in both tables, and within a table a name stands at one code. -/
theorem regName_inj {w w' : Width} {c c' : Code3} (h : regName w c = regName w' c') : w = w' ∧ c = c' := by
  obtain ⟨hbyte, hword, hdisjoint⟩ := List.nodup_append.mp nodup_byteReg_append_wordReg
  match w, w' with
  | .byte, .byte => exact ⟨rfl, code_eq_of_entry_eq hbyte h⟩
  | .word, .word => exact ⟨rfl, code_eq_of_entry_eq hword h⟩
  | .byte, .word => exact absurd h (hdisjoint _ (entry_mem_toList _ c) _ (entry_mem_toList _ c'))
  | .word, .byte => exact absurd h.symm (hdisjoint _ (entry_mem_toList _ c') _ (entry_mem_toList _ c))

/-- Settles O48: neither the register names nor the base expressions repeat, and the base table is the rule's list. -/
theorem namesAreOneToOne : Obligations.NamesAreOneToOne :=
  ⟨fun _ _ _ _ => regName_inj, baseExpr_injective, rfl⟩

/-! ### The accumulator rows -/

/-- Settles O11: each row emits its record, whose 8-bit address is zero-extended. -/
theorem accumulatorRowsEmit : Obligations.AccumulatorRowsEmit := by
  unfold Obligations.AccumulatorRowsEmit
  intro addr8 addr16 s
  exact ⟨fun h => ⟨zext16 addr8, toNat_zext16 addr8, exec_eq_moved (.memToAccByte addr8) h,
      exec_eq_moved (.accToMemByte addr8) h⟩,
    fun h => ⟨exec_eq_moved (.memToAccWord addr16) h, exec_eq_moved (.accToMemWord addr16) h⟩⟩

end Sys2Proof.Machine
end

section
/-! PROOFS. The operand resolver (spec/42_operand_resolver.md): the machine's step against the driver's `Step` (O22), the
bytes with which a form always decodes (O19), and the rows of `RegMemToFromReg` and `ImmediateToReg` and the truncation of
any row on the instruction (O7, O8, O12). -/

namespace Sys2Proof.Machine

/-! ### The driver's `Step`, by what `DecodeAt` answers -/

section
variable {m : Memory} {pos : Nat} {out : List Record}

theorem driverStep_at_end (hend : pos = m.size) : driverStep m pos out = (pos, .done, out) := if_pos hend

theorem driverStep_of_decodeAt_ok (hpos : pos ≠ m.size) {r : Record} (h : decodeAt m pos = .ok r) :
    driverStep m pos out = (pos + r.bytesConsumed, .running, out ++ [r]) := by
  simp only [driverStep, if_neg hpos, h]

theorem driverStep_of_decodeAt_error (hpos : pos ≠ m.size) {f : Failure} (h : decodeAt m pos = .error f) :
    driverStep m pos out = (pos, Failure.status f, out) := by
  cases f <;> simp only [driverStep, if_neg hpos, h] <;> rfl

end

/-- Settles O22: at the end both complete, and elsewhere both are decided alike by the answer of `DecodeAt(pos)`. -/
theorem stepIsTheDriverStep : Obligations.StepIsTheDriverStep := by
  unfold Obligations.StepIsTheDriverStep
  intro s hwf hrun
  by_cases hpos : s.pos = s.buf.size
  · rw [step_at_end hrun hpos, driverStep_at_end hpos]
    rfl
  · cases hdec : decodeAt s.buf s.pos with
    | ok r =>
      rw [step_of_decodeAt_ok hwf hrun hdec, driverStep_of_decodeAt_ok hpos hdec, ← hrun]
      rfl
    | error f =>
      rw [step_of_decodeAt_error hwf hrun hpos hdec, driverStep_of_decodeAt_error hpos hdec]
      rfl

/-! ### Decoding succeeds where the bytes of the length table are present -/

theorem exists_takeByte {bs : List Byte} (h : 1 ≤ bs.length) : ∃ p, takeByte bs = .ok p := by
  match bs with
  | b :: bs => exact ⟨_, rfl⟩

theorem exists_takeWord {bs : List Byte} (h : 2 ≤ bs.length) : ∃ p, takeWord bs = .ok p := by
  match bs with
  | lo :: hi :: bs => exact ⟨_, rfl⟩

theorem exists_except_map {ε α β : Type} {x : Except ε α} (h : ∃ a, x = .ok a) (f : α → β) : ∃ b, x.map f = .ok b := by
  obtain ⟨a, rfl⟩ := h
  exact ⟨f a, rfl⟩

theorem exists_takeField {α : Type} (w : Width) (ofByte : Byte → α) (ofWord : Word16 → α) {bs : List Byte}
    (h : w.bytes ≤ bs.length) : ∃ p, takeField w ofByte ofWord bs = .ok p := by
  cases w with
  | byte => exact exists_except_map (exists_takeByte h) _
  | word => exact exists_except_map (exists_takeWord h) _

theorem exists_decodeRm {m : Byte} {bs : List Byte} (h : dispBytes m ≤ bs.length) : ∃ p, decodeRm m bs = .ok p := by
  unfold decodeRm
  split_ifs with h3 h0 h6 h1
  · exact ⟨_, rfl⟩
  · exact exists_except_map (exists_takeWord (by simpa [dispBytes, h0, h6] using h)) _
  · exact ⟨_, rfl⟩
  · exact exists_except_map (exists_takeByte (by simpa [dispBytes, h1] using h)) _
  · have h2 : modField m = 2#2 := by bv_omega
    exact exists_except_map (exists_takeWord (by simpa [dispBytes, h2] using h)) _

/-- A decoded ModR/M form takes the bytes the displacement table gives its ModR/M byte (R57). -/
theorem dispBytes_of_decodeRm {m : Byte} {bs rest : List Byte} {f : RmForm} (h : decodeRm m bs = .ok (f, rest)) :
    dispBytes m = f.extra := by
  obtain ⟨hf, hm, -⟩ := decodeRm_ok h
  rw [← hm, dispBytes_modrm hf]

theorem exists_decodeImmRm {b0 m : Byte} {bs : List Byte}
    (h : dispBytes m + (1 + (bitField b0 0).toNat) ≤ bs.length) : ∃ p, decodeImmRm b0 (m :: bs) = .ok p := by
  obtain ⟨⟨f, rest⟩, hform⟩ := exists_decodeRm (m := m) (bs := bs) (by omega)
  have hlen := decodeRm_length hform
  rw [dispBytes_of_decodeRm hform] at h
  rw [decodeImmRm_cons, hform, except_bind_ok]
  exact exists_takeField _ _ _ (by rw [bytes_of_ofBit rfl]; dsimp only at hlen ⊢; omega)

/-- A first byte that classifies, with as many bytes as the length table gives, decodes (R64, R115). -/
theorem exists_decode {b0 m : Byte} {v : Variant} {bs : List Byte} (hc : classify b0 = .ok v)
    (h : lengthTable v b0 m ≤ bs.length + 2) : ∃ p, decode (b0 :: m :: bs) = .ok p := by
  simp only [decode, hc]
  cases v <;> dsimp only [lengthTable] at h ⊢
  case regMemToFromReg => exact exists_except_map (exists_decodeRm (by omega)) _
  case immediateToRegMem => exact exists_decodeImmRm (by omega)
  case immediateToReg | memToAcc | accToMem =>
    exact exists_takeField _ _ _ (by rw [bytes_of_ofBit rfl, List.length_cons]; omega)

/-- Settles O19: the bytes at `pos` decode, and what decodes has the form and the length of the table. -/
theorem stepDecodesWhenTheBytesArePresent : Obligations.StepDecodesWhenTheBytesArePresent := by
  unfold Obligations.StepDecodesWhenTheBytesArePresent
  intro s b0 m v hwf hrun hb0 hm hc hfits
  have hdrop : s.buf.bytes.drop s.pos = b0 :: m :: s.buf.bytes.drop (s.pos + 1 + 1) := by
    rw [drop_bytes_of_byte? hwf hb0, drop_bytes_of_byte? hwf hm]
  have hlen := bytes_length_of_drop hdrop
  simp only [List.length_cons] at hlen
  obtain ⟨⟨i, rest⟩, hdec⟩ := exists_decode (m := m) (bs := s.buf.bytes.drop (s.pos + 1 + 1)) hc (by omega)
  obtain ⟨hform, hlength, -⟩ := decodedLengthIsTheTable _ _ _ _ _ hdec
  obtain rfl := Except.ok.inj (hc.symm.trans hform)
  have hrec : decodeAt s.buf s.pos = .ok i.record := by
    rw [decodeAt_eq_decode hwf, hdrop, hdec, except_map_ok]
  refine ⟨i.record.first, i.record.second, ?_⟩
  rw [step_of_decodeAt_ok hwf hrun hrec, record_variant, record_bytesConsumed, hlength]

/-! ### The meaning of a row -/

/-- Settles O7: each row emits its record in both directions; an 8-bit displacement is sign-extended. -/
theorem regMemToFromRegRowsEmit : Obligations.RegMemToFromRegRowsEmit := by
  unfold Obligations.RegMemToFromRegRowsEmit
  intro w reg rm addr disp16 disp8 s
  exact ⟨fun h => ⟨exec_eq_moved (.rmReg .regIsSource w reg rm) h, exec_eq_moved (.rmReg .regIsDest w reg rm) h⟩,
    fun h => ⟨exec_eq_moved (.rmDirect .regIsSource w reg addr) h, exec_eq_moved (.rmDirect .regIsDest w reg addr) h⟩,
    fun h _ => ⟨exec_eq_moved (.rmMem .regIsSource w reg rm) h, exec_eq_moved (.rmMem .regIsDest w reg rm) h⟩,
    fun h => ⟨sext16 disp8, toInt_sext16_eq_ite disp8, exec_eq_moved (.rmDisp8 .regIsSource w reg rm disp8) h,
      exec_eq_moved (.rmDisp8 .regIsDest w reg rm disp8) h⟩,
    fun h => ⟨exec_eq_moved (.rmDisp16 .regIsSource w reg rm disp16) h,
      exec_eq_moved (.rmDisp16 .regIsDest w reg rm disp16) h⟩⟩

/-- Settles O8: each row emits its record, whose byte immediate is sign-extended. -/
theorem immediateToRegRowsEmit : Obligations.ImmediateToRegRowsEmit := by
  unfold Obligations.ImmediateToRegRowsEmit
  intro reg imm8 imm16 s
  exact ⟨fun h => ⟨sext16 imm8, toInt_sext16_eq_ite imm8, exec_eq_moved (.immRegByte reg imm8) h⟩,
    exec_eq_moved (.immRegWord reg imm16)⟩

/-- Settles O12: a meaning presents its record, and presenting past `LEN` takes the failure. -/
theorem execTakesTruncationPastTheEnd : Obligations.ExecTakesTruncationPastTheEnd := by
  unfold Obligations.ExecTakesTruncationPastTheEnd
  intro i s _ hshort
  rw [exec_eq_present, present_truncated (by rw [record_bytesConsumed]; omega)]
  rfl

end Sys2Proof.Machine
end

section
/-! PROOFS. The record and its text (spec/43_record_and_text.md): what every running state steps to (O21), decimal numerals
(O52), the text of operands and of whole lines (O49 to O51), and the wire packing (O53). -/

namespace Sys2Proof.Machine

/-! ### The next state of a running state -/

theorem exists_step_of_running {s : State} (hrun : s.status = .running) : ∃ t, step s = .next t := by
  by_cases hpos : s.pos = s.buf.size
  · exact ⟨_, step_at_end hrun hpos⟩
  · cases hfetch : fetch s with
    | ok i => exact ⟨_, step_of_fetch_ok hrun hpos hfetch⟩
    | error f => exact ⟨_, step_of_fetch_error hrun hpos hfetch⟩

/-- Settles O21: a running state has a step, and the three things a step can do are the three next states. -/
theorem runningStateAlwaysSteps : Obligations.RunningStateAlwaysSteps := by
  unfold Obligations.RunningStateAlwaysSteps
  intro s hrun
  obtain ⟨t, ht⟩ := exists_step_of_running hrun
  refine ⟨t, ht, ?_⟩
  cases step_cases ht with
  | complete hend => exact .inl ⟨hend, rfl⟩
  | emit i _ hfetch => exact .inr (.inl ⟨i.record, rfl, record_wellShaped i, fetch_fits hfetch⟩)
  | fail f hpos =>
    cases f with
    | unknownOpcode => exact .inr (.inr ⟨hpos, .inl rfl⟩)
    | truncatedInstruction => exact .inr (.inr ⟨hpos, .inr rfl⟩)

/-! ### Decimal numerals -/

@[simp] theorem toNat_digitChar {d : Nat} (hd : d < 10) : (digitChar d).toNat = 48 + d := by
  rw [digitChar, Char.toNat_ofNat, if_pos (.inl (by omega))]

theorem digitChar_decimal {d : Nat} (hd : d < 10) : 48 ≤ (digitChar d).toNat ∧ (digitChar d).toNat ≤ 57 := by
  rw [toNat_digitChar hd]
  omega

/-- The digit sequences of R151 with their numbers: one digit, or a digit after those of a positive number. -/
inductive IsNumeral : Nat → List Char → Prop
  | digit {d : Nat} (hd : d < 10) : IsNumeral d [digitChar d]
  | snoc {n d : Nat} {ds : List Char} (hn : 0 < n) (hds : IsNumeral n ds) (hd : d < 10) :
      IsNumeral (10 * n + d) (ds ++ [digitChar d])

theorem isNumeral_decDigits {fuel n : Nat} (h : n < fuel) : IsNumeral n (decDigits fuel n) := by
  induction fuel generalizing n with
  | zero => omega
  | succ fuel ih =>
    rw [decDigits]
    split_ifs with hn
    · exact .digit hn
    · have hsnoc := IsNumeral.snoc (by omega) (ih (n := n / 10) (by omega)) (Nat.mod_lt n (by omega))
      rwa [Nat.div_add_mod] at hsnoc

namespace IsNumeral

theorem ne_nil {n : Nat} {ds : List Char} (h : IsNumeral n ds) : ds ≠ [] := by
  cases h <;> simp

theorem decimal {n : Nat} {ds : List Char} (h : IsNumeral n ds) : ∀ c ∈ ds, 48 ≤ c.toNat ∧ c.toNat ≤ 57 := by
  induction h with
  | digit hd => simpa using digitChar_decimal hd
  | snoc _ _ hd ih => simpa [or_imp, forall_and, digitChar_decimal hd] using ih

/-- A numeral that starts with `0` stands for zero (R151). -/
theorem eq_zero_of_head {n : Nat} {ds : List Char} (h : IsNumeral n ds) (hhead : ds.head? = some '0') : n = 0 := by
  induction h with
  | digit hd =>
    have hzero := congrArg Char.toNat (Option.some.inj hhead)
    rw [toNat_digitChar hd] at hzero
    exact Nat.add_left_cancel hzero
  | snoc hn hds _ ih =>
    rw [List.head?_append_of_ne_nil _ hds.ne_nil] at hhead
    exact absurd (ih hhead) hn.ne'

theorem value {n : Nat} {ds : List Char} (h : IsNumeral n ds) :
    ds.foldl (fun v c => 10 * v + (c.toNat - 48)) 0 = n := by
  induction h with
  | digit hd => simp [hd]
  | snoc _ _ hd ih => simp [ih, hd]

end IsNumeral

theorem isNumeral_dec (n : Nat) : IsNumeral n (dec n).toList := by
  rw [dec, String.toList_ofList]
  exact isNumeral_decDigits n.lt_succ_self

theorem sdec_of_nonneg {z : Int} (h : 0 ≤ z) : sdec z = dec z.toNat := if_pos h

theorem sdec_of_neg {z : Int} (h : z < 0) : sdec z = "-" ++ dec (-z).toNat := if_neg (by omega)

/-- Settles O52: `sdec` by the sign, and each property of `dec n` from its being a numeral of `n`. -/
theorem decimalNumerals : Obligations.DecimalNumerals := by
  unfold Obligations.DecimalNumerals
  refine ⟨fun n => ⟨sdec_of_nonneg n.cast_nonneg, ?_⟩, fun n => ?_⟩
  · rw [sdec_of_neg (by omega), neg_neg, Int.toNat_natCast_add_one]
  · have hnum := isNumeral_dec n
    refine ⟨hnum.ne_nil, hnum.decimal, fun hhead => ?_, hnum.value⟩
    obtain rfl := hnum.eq_zero_of_head hhead
    exact ⟨rfl, rfl⟩

/-! ### The text of operands and lines -/

/-- Settles O49: the three branches of the text of a base expression, by the sign of the displacement. -/
theorem indirectOperandText : Obligations.IndirectOperandText := by
  unfold Obligations.IndirectOperandText
  intro b d dst
  simp only [opText, signed16_eq_toInt]
  refine ⟨fun hzero => if_pos hzero, fun hpos => ?_, fun hneg => ?_⟩
  · have hmag : d.toInt.toNat = d.toInt.natAbs := by omega
    rw [if_neg hpos.ne', if_pos hpos, hmag]
  · have hmag : (-d.toInt).toNat = d.toInt.natAbs := by omega
    rw [if_neg hneg.ne, if_neg hneg.not_gt, hmag]

theorem opText_immediate_of_isMemory {dst : Operand} (h : dst.isMemory = true) (v : Word16) (hint : SizeHint) :
    opText (.immediate v hint) dst = SizeHint.keyword hint ++ sdec v.toInt := by
  rw [opText, if_pos h, signed16_eq_toInt]

theorem opText_immediate_of_not_isMemory {dst : Operand} (h : dst.isMemory = false) (v : Word16) (hint : SizeHint) :
    opText (.immediate v hint) dst = sdec v.toInt := by
  rw [opText, h, if_neg Bool.false_ne_true, String.empty_append, signed16_eq_toInt]

/-- Settles O50: both memory kinds have the keyword of the hint, a register has none. -/
theorem immediateOperandText : Obligations.ImmediateOperandText := by
  unfold Obligations.ImmediateOperandText
  intro v a dsp b c w
  exact ⟨opText_immediate_of_isMemory rfl v .byte, opText_immediate_of_isMemory rfl v .word,
    opText_immediate_of_isMemory rfl v .byte, opText_immediate_of_isMemory rfl v .word,
    opText_immediate_of_not_isMemory rfl v .byte, opText_immediate_of_not_isMemory rfl v .word⟩

/-- Settles O51: each record's text evaluates to its line. -/
theorem linesOfText : Obligations.LinesOfText := by
  unfold Obligations.LinesOfText
  decide

/-! ### The wire packing -/

/-- Settles O53, by the kind of the operand: each kind's fields are read back under its own code. -/
theorem wirePackingLosesNothing : Obligations.WirePackingLosesNothing := by
  unfold Obligations.WirePackingLosesNothing
  intro o
  cases o with
  | register w c => exact congrArg (Operand.register · c) (width_ofBit_bit w)
  | memoryDirect a => rfl
  | memoryIndirect b d => rfl
  | immediate v hint => cases hint <;> rfl

end Sys2Proof.Machine
end

section
/-! PROOFS. The driver (spec/44_driver.md): the step of the instruction at `pos` (O14, O15, O23, O45), completion, failure
and the terminal statuses (O16, O20, O24), and whole runs: they only advance (O37), they end (O39), and over encoded
instructions they end in `DONE` (O40). -/

namespace Sys2Proof.Machine

/-! ### The instruction at `pos` -/

theorem length_encode (i : Instr) : (encode i).length = i.length := (Sys2Proof.Laws.EncodeLength.all i).1

/-- An instruction has at least two bytes (R6). -/
theorem two_le_bytesConsumed (i : Instr) : 2 ≤ i.record.bytesConsumed :=
  (Sys2Proof.Laws.EncodeLength.all i).2.1.trans_eq (record_bytesConsumed i).symm

/-- A fetched instruction starts below `LEN` (R6, R37). -/
theorem pos_ne_size_of_fetch {s : State} {i : Instr} (h : fetch s = .ok i) : s.pos ≠ s.buf.size := by
  have hfits := fetch_fits h
  have hmin := two_le_bytesConsumed i
  omega

/-- The meaning of a fetched instruction emits its record and advances past it (R163). -/
theorem exec_of_fetch {s : State} {i : Instr} (h : fetch s = .ok i) :
    exec i s = .next ((s.emit i.record).advance i.record.bytesConsumed) := by
  rw [exec_eq_present, present_fits (fetch_fits h)]

/-- The step of a fetched instruction is its meaning (R162). -/
theorem step_eq_exec_of_fetch {s : State} (hrun : s.status = .running) {i : Instr} (h : fetch s = .ok i) :
    step s = exec i s := by
  rw [step_of_fetch_ok hrun (pos_ne_size_of_fetch h) h, exec_of_fetch h]

/-- Where the bytes from `pos` on begin with an encoding, its instruction is fetched (R21, R162). -/
theorem fetch_of_drop {s : State} (hwf : s.buf.wf = true) {i : Instr} (hi : i.wf = true) {rest : List Byte}
    (h : s.buf.bytes.drop s.pos = encode i ++ rest) : fetch s = .ok i := by
  rw [fetch_eq_decode hwf, h, decode_encode hi, except_map_ok]

/-- What is fetched is well-formed, and the bytes from `pos` on begin with its encoding. -/
theorem drop_of_fetch {s : State} (hwf : s.buf.wf = true) {i : Instr} (h : fetch s = .ok i) :
    i.wf = true ∧ ∃ rest, s.buf.bytes.drop s.pos = encode i ++ rest := by
  rw [fetch_eq_decode hwf] at h
  obtain ⟨⟨j, rest⟩, hdec, rfl⟩ := except_map_eq_ok h
  obtain ⟨hi, hbytes⟩ := encode_of_decode hdec
  exact ⟨hi, rest, hbytes⟩

/-- A list is read byte by byte from an offset on exactly where the buffer's bytes from there on begin with it. -/
theorem byte?_eq_getElem?_iff_drop {m : Memory} (hwf : m.wf = true) (p : Nat) (bs : List Byte) :
    (∀ k, k < bs.length → m.byte? (p + k) = bs[k]?) ↔ ∃ rest, m.bytes.drop p = bs ++ rest := by
  have hprefix : (∃ rest, m.bytes.drop p = bs ++ rest) ↔ bs <+: m.bytes.drop p := by
    simp only [List.IsPrefix, eq_comm]
  rw [hprefix, List.prefix_iff_getElem?]
  refine forall₂_congr fun k hk => ?_
  rw [List.getElem?_drop, Memory.byte?_of_wf hwf, List.getElem?_eq_getElem hk]

/-- Settles O14: the window's instruction is the one fetched. -/
theorem stepRunsTheDecodedInstruction : Obligations.StepRunsTheDecodedInstruction := by
  unfold Obligations.StepRunsTheDecodedInstruction
  intro s i rest hrun hdec
  exact step_eq_exec_of_fetch hrun (by rw [fetch, hdec, except_map_ok])

/-- Settles O15: the instruction whose encoding lies at `pos` is fetched, and its meaning emits its record. -/
theorem stepRunsTheInstructionInTheBuffer : Obligations.StepRunsTheInstructionInTheBuffer := by
  unfold Obligations.StepRunsTheInstructionInTheBuffer
  intro s i hwf hrun hi hbytes
  obtain ⟨rest, hdrop⟩ := (byte?_eq_getElem?_iff_drop hwf s.pos (encode i)).mp (by rwa [length_encode])
  have hfetch := fetch_of_drop hwf hi hdrop
  have hexec := exec_of_fetch hfetch
  refine ⟨_, i.record, (step_eq_exec_of_fetch hrun hfetch).trans hexec, hexec, ?_, record_variant i,
    record_bytesConsumed i⟩
  rw [← record_bytesConsumed]
  rfl

/-- Settles O23: the record is that of the instruction fetched, whose encoding is the bytes at `pos`. -/
theorem decodedRecordIsEmitted : Obligations.DecodedRecordIsEmitted := by
  unfold Obligations.DecodedRecordIsEmitted
  intro s r hwf hrun hdec
  have hlines : s.recLines = some r := by rw [recLines_of_running hwf hrun, hdec]; rfl
  rw [decodeAt_eq_fetch hwf] at hdec
  obtain ⟨i, hfetch, rfl⟩ := except_map_eq_ok hdec
  have hstep := step_eq_exec_of_fetch hrun hfetch
  obtain ⟨hi, hdrop⟩ := drop_of_fetch hwf hfetch
  refine ⟨hstep.trans (exec_of_fetch hfetch), fetch_fits hfetch, hlines, by rw [State.recValid, hlines]; rfl,
    i, hi, (record_bytesConsumed i).symm, hstep.symm, ?_⟩
  rw [← length_encode]
  exact (byte?_eq_getElem?_iff_drop hwf s.pos (encode i)).mpr hdrop

/-! ### A placed table word -/

/-- The bytes of a buffer from where `bs` was placed on begin with `bs`, also past the old end. -/
theorem drop_bytes_place (m : Memory) (p : Nat) (bs : List Byte) :
    ∃ rest, (m.place p bs).bytes.drop p = bs ++ rest := by
  have hfront : (m.bytes.take p ++ List.replicate (p - m.size) 0#8).length = p := by
    simp only [List.length_append, List.length_take, Memory.length_bytes, List.length_replicate]
    omega
  refine ⟨m.bytes.drop (p + bs.length), ?_⟩
  rw [Memory.place, Memory.bytes_ofBytes, List.append_assoc]
  exact List.drop_left' hfront

/-- The bytes of a table word fill the window, so nothing behind a placed word matters (R21). -/
theorem fetch_withFetchWord {nbits w : Nat} {i : Instr} (h : decodeTableWord nbits w = some i) (s : State) :
    fetch (s.withFetchWord nbits w) = .ok i := by
  obtain ⟨rest, hdrop⟩ := drop_bytes_place s.buf s.pos (tableBytes nbits w)
  have hwindow : (s.withFetchWord nbits w).window = tableBytes nbits w := by
    rw [State.window_eq _ (Memory.wf_place _ _ _), State.withFetchWord_buf, State.withFetchWord_pos, hdrop]
    exact List.take_left' rfl
  rw [fetch, hwindow]
  unfold decodeTableWord at h
  split at h
  case h_1 hdec =>
    rw [hdec, except_map_ok]
    exact congrArg Except.ok (Option.some.inj h)
  case h_2 => cases h

/-- Settles O45: the placed instruction is fetched. -/
theorem placedTableWordRuns : Obligations.PlacedTableWordRuns := by
  unfold Obligations.PlacedTableWordRuns
  intro s nbits w i h
  have hfetch := fetch_withFetchWord h s
  have hstep := step_eq_exec_of_fetch (State.withFetchWord_status s nbits w) hfetch
  exact ⟨rfl, rfl, hstep, _, hstep.trans (exec_of_fetch hfetch), by simp, rfl⟩

/-! ### Completion, failure and the terminal statuses -/

/-- Settles O16. -/
theorem stepCompletesAtTheBufferEnd : Obligations.StepCompletesAtTheBufferEnd :=
  ⟨fun _ hrun hend => step_at_end hrun hend, step_at_end rfl rfl⟩

theorem step_of_not_running {s : State} (h : s.status ≠ .running) : step s = .fault (.runOver s.status) := by
  cases hs : s.status with
  | running => exact absurd hs h
  | done | failUnknownOpcode | failTruncated => simp only [step, hs]

/-- Settles O20. -/
theorem terminalStatusEnablesNoStep : Obligations.TerminalStatusEnablesNoStep :=
  fun _ => step_of_not_running

/-- Settles O24: a step in which `DecodeAt(pos)` fails takes its failure, and only a record makes `rec_valid` 1. -/
theorem failedDecodeChangesTheStatusAlone : Obligations.FailedDecodeChangesTheStatusAlone := by
  unfold Obligations.FailedDecodeChangesTheStatusAlone
  intro s f hwf hrun hpos hdec
  have hstep := step_of_decodeAt_error hwf hrun hpos.ne hdec
  refine ⟨?_, ?_, ?_⟩
  · rintro rfl
    exact hstep
  · rintro rfl
    exact hstep
  · rw [State.recValid, recLines_of_running hwf hrun, hdec]
    rfl

/-! ### Runs -/

/-- What a run keeps of the state it began in: the buffer, the records emitted before, and that `pos` never decreases. -/
structure RunFrom (s t : State) : Prop where
  buf : t.buf = s.buf
  out : s.out <+: t.out
  pos : s.pos ≤ t.pos

theorem RunFrom.refl (s : State) : RunFrom s s := ⟨rfl, List.prefix_rfl, Nat.le_refl _⟩

theorem RunFrom.trans {s t u : State} (hst : RunFrom s t) (htu : RunFrom t u) : RunFrom s u :=
  ⟨htu.buf.trans hst.buf, hst.out.trans htu.out, hst.pos.trans htu.pos⟩

/-- A step keeps `pos` and `out`, or appends one record and advances by its length with the run going on (R165). -/
theorem step_pos_out {s t : State} (h : step s = .next t) : (t.pos = s.pos ∧ t.out = s.out) ∨
    ∃ r : Record, t.out = s.out ++ [r] ∧ t.pos = s.pos + r.bytesConsumed ∧ t.status = .running := by
  have hrun := running_of_step h
  cases step_cases h with
  | complete => exact .inl ⟨rfl, rfl⟩
  | emit i => exact .inr ⟨i.record, rfl, rfl, hrun⟩
  | fail => exact .inl ⟨rfl, rfl⟩

theorem runFrom_of_step {s t : State} (h : step s = .next t) : RunFrom s t := by
  obtain ⟨hpos, hout⟩ | ⟨r, hout, hpos, -⟩ := step_pos_out h
  · exact ⟨step_buf h, hout ▸ List.prefix_rfl, hpos.ge⟩
  · exact ⟨step_buf h, hout ▸ List.prefix_append _ _, by omega⟩

/-- Settles O37: one step by its three cases, a run by `RunFrom` being kept by each step. -/
theorem runsOnlyAppendAndAdvance : Obligations.RunsOnlyAppendAndAdvance := by
  unfold Obligations.RunsOnlyAppendAndAdvance
  refine ⟨fun _ _ => step_pos_out, fun k s t h => ?_⟩
  obtain ⟨hbuf, hout, hpos⟩ :=
    runSteps_keeps (P := RunFrom s) (fun _ _ hs hstep => hs.trans (runFrom_of_step hstep)) (.refl s) h
  exact ⟨hbuf, hout, hpos⟩

theorem runSteps_succ_of_step {s u : State} (h : step s = .next u) (k : Nat) : runSteps (k + 1) s = runSteps k u := by
  rw [runSteps_succ, h]

theorem runSteps_one {s t : State} (h : step s = .next t) : runSteps 1 s = .next t := runSteps_succ_of_step h 0

/-- With fewer than `2 * n` bytes left a run has ended after `n` steps: a step ends it or takes at least two bytes (R6). -/
theorem exists_run_to_terminal (n : Nat) {s : State} (hrun : s.status = .running) (hpos : s.pos ≤ s.buf.size)
    (hn : s.buf.size < s.pos + 2 * n) : ∃ k ≤ n, ∃ t, runSteps k s = .next t ∧ t.status ≠ .running := by
  induction n generalizing s with
  | zero => omega
  | succ n ih =>
    obtain ⟨t, ht⟩ := exists_step_of_running hrun
    cases step_cases ht with
    | complete => exact ⟨1, by omega, _, runSteps_one ht, by simp⟩
    | fail f => exact ⟨1, by omega, _, runSteps_one ht, failure_status_ne_running f⟩
    | emit i _ hfetch =>
      have hfits := fetch_fits hfetch
      have hmin := two_le_bytesConsumed i
      obtain ⟨k, hk, t, hkt, hterminal⟩ := ih (s := (s.emit i.record).advance i.record.bytesConsumed) hrun hfits
        (by simp only [State.advance_pos, State.advance_buf, State.emit_pos, State.emit_buf]; omega)
      exact ⟨k + 1, by omega, t, (runSteps_succ_of_step ht k).trans hkt, hterminal⟩

/-- Settles O39: half the bytes left and one step more are steps enough, and a terminal status enables none. -/
theorem everyRunTerminates : Obligations.EveryRunTerminates := by
  unfold Obligations.EveryRunTerminates
  intro s hrun hpos
  obtain ⟨k, hk, t, hkt, hterminal⟩ :=
    exists_run_to_terminal ((s.buf.size - s.pos) / 2 + 1) hrun hpos (by omega)
  exact ⟨k, t, hk, hkt, hterminal, step_of_not_running hterminal⟩

/-- Where the bytes left are the encodings of well-formed instructions, the run emits their records and completes at the
end of the buffer (R163, R195). -/
theorem runSteps_encoded (is : List Instr) (his : ∀ i ∈ is, i.wf = true) {s : State} (hwf : s.buf.wf = true)
    (hrun : s.status = .running) (hpos : s.pos ≤ s.buf.size) (hbytes : s.buf.bytes.drop s.pos = is.flatMap encode) :
    runSteps (is.length + 1) s =
      .next { s with pos := s.buf.size, status := .done, out := s.out ++ is.map Instr.record } := by
  induction is generalizing s with
  | nil =>
    have hlen := bytes_length_of_drop hbytes
    rw [List.flatMap_nil, List.length_nil] at hlen
    have hend : s.pos = s.buf.size := by omega
    rw [List.length_nil, Nat.zero_add, runSteps_one (step_at_end hrun hend), List.map_nil, List.append_nil, ← hend]
    rfl
  | cons i is ih =>
    obtain ⟨hi, his⟩ := List.forall_mem_cons.mp his
    rw [List.flatMap_cons] at hbytes
    have hfetch := fetch_of_drop hwf hi hbytes
    have hstep := (step_eq_exec_of_fetch hrun hfetch).trans (exec_of_fetch hfetch)
    have hrest := drop_add_of_drop hbytes
    rw [length_encode, ← record_bytesConsumed] at hrest
    rw [List.length_cons, runSteps_succ_of_step hstep,
      ih his (s := (s.emit i.record).advance i.record.bytesConsumed) hwf hrun (fetch_fits hfetch) hrest]
    simp [State.emit, State.advance]

/-- Settles O40: the run over the encodings emits the instructions' records, and each is what its meaning emits. -/
theorem encodedProgramRunsToDone : Obligations.EncodedProgramRunsToDone := by
  unfold Obligations.EncodedProgramRunsToDone
  intro is his
  refine ⟨_, runSteps_encoded is his (Memory.wf_ofBytes _) rfl (Nat.zero_le _) (Memory.bytes_ofBytes _), rfl,
    Memory.size_ofBytes _, ?_⟩
  rw [State.boot_out, List.nil_append, List.forall₂_map_right_iff, List.forall₂_same]
  intro i _ s hfits
  rw [← record_bytesConsumed] at hfits ⊢
  rw [exec_eq_present, present_fits hfits]
  rfl

end Sys2Proof.Machine
end

section
/-! PROOFS. The two failures at the step that takes them (spec/60_exceptions.md): an unknown first byte (O17),
an instruction that runs past `LEN` (O18), a lone byte (O33) and `DecodeAt` past the end (O32). -/

namespace Sys2Proof.Machine

/-! ### Bounds -/

/-- An offset that holds a byte lies below `LEN` (R30). -/
theorem Memory.lt_size_of_byte? {m : Memory} (hwf : m.wf = true) {a : Nat} {b : Byte} (h : m.byte? a = some b) :
    a < m.size :=
  (Memory.isSome_byte?_iff hwf a).mp (Option.isSome_of_eq_some h)

theorem dispBytes_le_two (m : Byte) : dispBytes m ≤ 2 := by
  unfold dispBytes
  split_ifs <;> omega

/-- No instruction is longer than six bytes (R6). -/
theorem lengthTable_le_maxInstrLen (v : Variant) (b0 m : Byte) : lengthTable v b0 m ≤ Config.maxInstrLen := by
  have hdisp := dispBytes_le_two m
  have hbit0 := (bitField b0 0).isLt
  have hbit3 := (bitField b0 3).isLt
  cases v <;> simp only [lengthTable, Config.maxInstrLen] <;> omega

/-! ### The step that fails -/

/-- From a terminal status no step leads on (R166). -/
theorem step_ne_next_of_not_running {s : State} (h : s.status ≠ .running) (t : State) : step s ≠ .next t := by
  rw [step_of_not_running h]
  exact nofun

section
variable {s : State} (hwf : s.buf.wf = true) (hrun : s.status = .running) {b : Byte} (hb : s.buf.byte? s.pos = some b)
include hwf hrun hb

/-- Classification comes first: a first byte that does not classify is `UnknownOpcode`, whatever follows it (R170, R174). -/
theorem step_unknownOpcode (hc : classify b = .error .unknownOpcode) :
    step s = .next (s.ended .failUnknownOpcode) := by
  have hdec : decodeAt s.buf s.pos = .error .unknownOpcode := by simp only [decodeAt, hb, hc]
  exact step_of_decodeAt_error hwf hrun (Memory.lt_size_of_byte? hwf hb).ne hdec

/-- With six bytes left an instruction whose first byte classifies is not truncated: no form asks for more (R64, R171). -/
theorem size_le_of_step_truncated {v : Variant} (hc : classify b = .ok v)
    (h : step s = .next (s.ended .failTruncated)) : s.buf.size ≤ s.pos + 5 := by
  by_contra hlong
  obtain ⟨m, hm⟩ := Memory.exists_byte?_eq_some hwf (show s.pos + 1 < s.buf.size by omega)
  have hmax := lengthTable_le_maxInstrLen v b m
  rw [Config.maxInstrLen] at hmax
  obtain ⟨first, second, hmoved⟩ :=
    stepDecodesWhenTheBytesArePresent s b m v hwf hrun hb hm hc (by omega)
  have hstatus : s.status = .failTruncated := congrArg State.status (Host.Outcome.next.inj (hmoved.symm.trans h))
  cases hrun.symm.trans hstatus

end

/-! ### The obligations -/

/-- Settles O18: a table length past `LEN` truncates, and six bytes left are enough for every form. -/
theorem stepTakesTruncation : Obligations.StepTakesTruncation := by
  unfold Obligations.StepTakesTruncation
  intro s b0 v hwf hrun hb0 hc
  refine ⟨?_, fun h => ⟨Memory.lt_size_of_byte? hwf hb0, size_le_of_step_truncated hwf hrun hb0 hc h⟩,
    step_ne_next_of_not_running nofun⟩
  rintro (hshort | ⟨m, hm, hshort⟩)
  · exact step_truncated_no_second hwf hrun hb0 hc hshort
  · refine step_truncated hwf hrun hb0 hc fun m' hm' => ?_
    obtain rfl := Option.some.inj (hm.symm.trans hm')
    exact hshort

/-- Settles O17: the classifier's failure is the step's, and its status is terminal. -/
theorem stepTakesUnknownOpcode : Obligations.StepTakesUnknownOpcode :=
  fun _ _ hwf hrun hb hc => ⟨step_unknownOpcode hwf hrun hb hc, step_ne_next_of_not_running nofun⟩

/-- Settles O32: there is no byte at the offset, and none in the empty sequence. -/
theorem decodePastTheEndIsTruncated : Obligations.DecodePastTheEndIsTruncated :=
  ⟨fun _ _ hwf h => decodeAt_past_end hwf h, rfl⟩

/-- Settles O33: the lone byte is the one at `pos`, and there is no second byte. -/
theorem loneByteFailurePriority : Obligations.LoneByteFailurePriority := by
  unfold Obligations.LoneByteFailurePriority
  intro b
  have hwf : (State.boot [b]).buf.wf = true := Memory.wf_ofBytes [b]
  have hb : (State.boot [b]).buf.byte? (State.boot [b]).pos = some b := Memory.byte?_ofBytes [b] 0
  have hshort : (State.boot [b]).buf.size < (State.boot [b]).pos + 2 := Nat.lt_succ_self 1
  exact ⟨step_unknownOpcode hwf rfl hb, fun _ hc => step_truncated_no_second hwf rfl hb hc hshort⟩

end Sys2Proof.Machine
end

section
/-! PROOFS. Reset (O34, O55), and the inputs whose run ends in `DONE` (O41): at every moment of a run the bytes before
`pos` are encodings of well-formed instructions. -/

namespace Sys2Proof.Machine

/-! ### Reset -/

/-- Settles O34. -/
theorem resetPutsEveryValue : Obligations.ResetPutsEveryValue :=
  ⟨fun s => ⟨s.assertRst_pos, s.assertRst_status, s.assertRst_out, s.assertRst_buf⟩, rfl, rfl, rfl⟩

/-- Whatever ran before, supplying a buffer and asserting `rst` starts a run over it (R193, R196). -/
theorem assertRst_of_supplied (s : State) (bs : List Byte) :
    State.assertRst { s with buf := Memory.ofBytes bs } = State.boot bs := rfl

/-- Settles O55. -/
theorem resetKeepsTheBufferAndPresentsNoRecord : Obligations.ResetKeepsTheBufferAndPresentsNoRecord :=
  ⟨fun s => ⟨s.assertRst, s.onEvent_rst, s.assertRst_buf, s.recValidIn_rst, s.assertRst.recValidIn_rest⟩,
    State.reset.recValidIn_rest, fun s bs => congrArg Host.Outcome.next (assertRst_of_supplied s bs)⟩

/-! ### The inputs whose run ends in `DONE` -/

/-- The bytes before `pos` are the encodings of well-formed instructions, one after another. -/
def State.EncodedBefore (s : State) : Prop :=
  ∃ is : List Instr, (∀ i ∈ is, i.wf = true) ∧ s.buf.bytes.take s.pos = is.flatMap encode

theorem encodedBefore_boot (bs : List Byte) : (State.boot bs).EncodedBefore :=
  ⟨[], List.forall_mem_nil _, rfl⟩

/-- A step leaves `pos` or moves it past one more encoding (R163, R165). -/
theorem step_keeps_encodedBefore {s t : State} (hwf : s.buf.wf = true) (hs : s.EncodedBefore) (h : step s = .next t) :
    t.EncodedBefore := by
  cases step_cases h with
  | complete => exact hs
  | fail => exact hs
  | emit i _ hfetch =>
    obtain ⟨is, his, hbefore⟩ := hs
    obtain ⟨hi, rest, hdrop⟩ := drop_of_fetch hwf hfetch
    refine ⟨is ++ [i], List.forall_mem_append.mpr ⟨his, List.forall_mem_singleton.mpr hi⟩, ?_⟩
    rw [State.advance_pos, State.advance_buf, State.emit_pos, State.emit_buf, record_bytesConsumed, ← length_encode,
      List.take_add, hbefore, hdrop, List.take_left, List.flatMap_append, List.flatMap_singleton]

/-- A run that ends in `DONE` has `LEN` bytes before `pos`: the whole input is encodings (R13, R195). -/
theorem encodings_of_run_done {bs : List Byte} {k : Nat} {t : State} (h : runSteps k (State.boot bs) = .next t)
    (hdone : t.status = .done) : ∃ is : List Instr, (∀ i ∈ is, i.wf = true) ∧ bs = is.flatMap encode := by
  obtain ⟨hmoment, is, his, hbytes⟩ := runSteps_keeps (P := fun s => RunMoment bs s ∧ s.EncodedBefore)
    (fun _ _ ⟨hm, he⟩ hstep => ⟨step_keeps_runMoment hm hstep, step_keeps_encodedBefore hm.inv.bufCanonical he hstep⟩)
    ⟨runMoment_boot bs, encodedBefore_boot bs⟩ h
  rw [hmoment.inv.doneAtEnd hdone, ← Memory.length_bytes, List.take_length, hmoment.buf, Memory.bytes_ofBytes] at hbytes
  exact ⟨is, his, hbytes⟩

/-- Settles O41: from left to right by the bytes before `pos`, from right to left by O40. -/
theorem runEndsDoneExactlyOnEncodings : Obligations.RunEndsDoneExactlyOnEncodings := by
  unfold Obligations.RunEndsDoneExactlyOnEncodings
  intro bs
  constructor
  · rintro ⟨k, t, hrun, hdone⟩
    exact encodings_of_run_done hrun hdone
  · rintro ⟨is, his, rfl⟩
    obtain ⟨t, hrun, hdone, -⟩ := encodedProgramRunsToDone is his
    exact ⟨is.length + 1, t, hrun, hdone⟩

end Sys2Proof.Machine
end
